-- ==== Sys2Proof/Word.lean ====
section
/-! DEFINITION. The machine's plain value types: bytes, 32-bit window words, state words, and the eight
words of a chaining value (spec 00 rule R14, 10 rules R32, R40, R41). -/

namespace Sys2Proof

/-- A byte (R15). -/
abbrev Byte := BitVec 8

/-- A 32-bit window register or command word (R32, R110). -/
abbrev Word := BitVec 32

/-- A state word in the 512-bit shape that R41 lets a model store both families in. A 256-bit family
word stands in the low 32 bits. -/
abbrev Lane := BitVec 64

/-- The eight words of a chaining value, word 0 first (R40). -/
structure Words (w : Nat) where
  w0 : BitVec w
  w1 : BitVec w
  w2 : BitVec w
  w3 : BitVec w
  w4 : BitVec w
  w5 : BitVec w
  w6 : BitVec w
  w7 : BitVec w
  deriving DecidableEq, Repr, Inhabited

namespace Words

/-- The words in order, word 0 first. -/
def toList {w : Nat} (x : Words w) : List (BitVec w) :=
  [x.w0, x.w1, x.w2, x.w3, x.w4, x.w5, x.w6, x.w7]

/-- Apply `f` to each word. -/
def map {v w : Nat} (f : BitVec v → BitVec w) (x : Words v) : Words w :=
  ⟨f x.w0, f x.w1, f x.w2, f x.w3, f x.w4, f x.w5, f x.w6, f x.w7⟩

/-- Word `i` is `f i`. -/
def ofFn {w : Nat} (f : Nat → BitVec w) : Words w :=
  ⟨f 0, f 1, f 2, f 3, f 4, f 5, f 6, f 7⟩

/-- Eight zero words (the `state` of ZDC, R40). -/
def zero (w : Nat) : Words w := ofFn fun _ => 0#w

end Words

end Sys2Proof
end

