-- ==== Sys2Proof/Config.lean ====
section
/-! DEFINITION. What the implementation fixes (spec 00 rules R3 and R11): the two families and their constants,
NCTX, ADDR_BITS, CTR_BITS, and the OPEN parameters: the compression functions and initial values (free
constants, no body), and the types of the platform's own parameters BASE and MemAdmit. -/

namespace Sys2Proof

/-- The two hash families (R3). -/
inductive Family
  | f256
  | f512
  deriving DecidableEq, Repr, Inhabited

namespace Family

/-- The FAMILY code: 0 = 256-bit, 1 = 512-bit (R3). -/
def code : Family → Nat
  | .f256 => 0
  | .f512 => 1

/-- The family FAMILY bit `b` selects (R112). -/
def ofBit (b : Bool) : Family := if b then .f512 else .f256

/-- W, the bits of a state word (R3). -/
def wordBits : Family → Nat
  | .f256 => 32
  | .f512 => 64

/-- WB = W/8, the bytes of a state word (R3). -/
def wordBytes : Family → Nat
  | .f256 => 4
  | .f512 => 8

/-- BLOCK, the bytes of a message block (R3). -/
def block : Family → Nat
  | .f256 => 64
  | .f512 => 128

/-- DIGLEN, the bytes of a digest (R3). -/
def digLen : Family → Nat
  | .f256 => 32
  | .f512 => 64

/-- LENLEN, the bytes of the length field (R3). -/
def lenLen : Family → Nat
  | .f256 => 8
  | .f512 => 16

/-- IMAGE_SIZE(F) = 8·WB + BLOCK + 20 (R11, R190, R194). -/
def imageSize (F : Family) : Nat := 8 * F.wordBytes + F.block + 20

end Family

/-- NCTX, the number of context slots (R11: 4 for this hardware). -/
abbrev Config.nctx : Nat := 4

/-- ADDR_BITS, the width of a DMA byte address (R11). -/
abbrev Config.addrBits : Nat := 32

/-- The number of byte addresses of host memory, 2^ADDR_BITS (R80). -/
abbrev Config.memSize : Nat := 2 ^ Config.addrBits

/-- CTR_BITS, the width of the total-length counter (R11, R12: 64 for this hardware). -/
abbrev Config.ctrBits : Nat := 64

/-- The total-length counter, an unsigned CTR_BITS-bit number that wraps (R152 (a)). -/
abbrev Counter := BitVec Config.ctrBits

/-- The bytes of the register window (R32). -/
abbrev Config.windowSize : Nat := 256

/-- The parameters `Compress_F` and `IV_F` of the model (R13, R140, R141), with each family's own word
width. The block is the BLOCK-byte string in message order (R87). -/
structure Prims where
  compress256 : Words 32 → List Byte → Words 32
  compress512 : Words 64 → List Byte → Words 64
  iv256 : Words 32
  iv512 : Words 64

/-- OPEN parameter `Compress` of the 256-bit family: any function at all (R13, R140; log entry 3). -/
opaque Config.compress256 : Words 32 → List Byte → Words 32

/-- OPEN parameter `Compress` of the 512-bit family (R13, R140; log entry 3). -/
opaque Config.compress512 : Words 64 → List Byte → Words 64

/-- OPEN parameter `IV_256` (R13, R141; log entry 3). -/
opaque Config.iv256 : Words 32

/-- OPEN parameter `IV_512` (R13, R141; log entry 3). -/
opaque Config.iv512 : Words 64

/-- The supplied, unknown `Compress` and `IV`. -/
def Config.prims : Prims :=
  ⟨Config.compress256, Config.compress512, Config.iv256, Config.iv512⟩

/-- FREE VALUES: the bytes the spec says "may hold any value" (R301, R307), one fresh byte for each value of
the counter `State.free` (log entries 7 and 8). -/
opaque Config.freeByte : Nat → Byte

/-- The direction of a DMA access (R84). -/
inductive Dir
  | read
  | write
  deriving DecidableEq, Repr

/-- One range of host memory the platform lets the DMA port access (R84; log entry 4). -/
structure Region where
  base : Nat
  size : Nat
  canRead : Bool
  canWrite : Bool
  deriving DecidableEq, Repr

namespace Region

/-- Whether the region admits accesses in direction `d`. -/
def allows (r : Region) : Dir → Bool
  | .read => r.canRead
  | .write => r.canWrite

end Region

/-- Which compression functions and initial values the device was built with: the supplied ones, of which
nothing is known, or the FIPS 180-4 reference of spec 93. Assuming `fips` is the named premise R13 asks
of a claim about a particular digest (log entry 3). -/
inductive CompressUnit
  | supplied
  | fips
  deriving DecidableEq, Repr

/-- The platform's parameters (R11): BASE (R93), MemAdmit as its admitted ranges (R84), and the
compression unit (R13). No step changes them. -/
structure Platform where
  base : Nat
  admitted : List Region
  unit : CompressUnit
  deriving DecidableEq, Repr

/-- The platform `State.reset` stands on: the MemAdmit of the spec's own vectors (95 section 2), BASE just
above host memory, the supplied compression unit. DESIGN CHOICE (log entry 2). -/
def Config.platform : Platform :=
  { base := Config.memSize
    admitted := [{ base := 0x1000, size := 0x3000, canRead := true, canWrite := true }]
    unit := .supplied }

end Sys2Proof
end

