-- ==== Sys2Proof/Machine/Bytes.lean ====
section
/-! DEFINITION. Byte strings: the big-endian codes and the slices of spec 00 rule R15 and 20 rule R85. -/

namespace Sys2Proof.Machine

/-- `BE_n(v)` (R15): byte `i` is `(v >> (8·(n−1−i))) & 0xFF`. -/
def beEnc (n v : Nat) : List Byte :=
  (List.range n).map fun i => BitVec.ofNat 8 (v >>> (8 * (n - 1 - i)))

/-- `BEdec(s)` (R15): the number whose big-endian encoding is `s`. -/
def beDec (s : List Byte) : Nat := s.foldl (fun acc b => acc * 256 + b.toNat) 0

/-- `zeros(n)` (R15). -/
def zeros (n : Nat) : List Byte := List.replicate n 0

/-- The slice `s[i..i+n)` (R15). -/
def slice (s : List Byte) (i n : Nat) : List Byte := (s.drop i).take n

/-- `s` with the bytes from index `at_` on replaced by `m` (`buf[at..at+len m) <- m`, R142, R149). -/
def splice (s : List Byte) (at_ : Nat) (m : List Byte) : List Byte :=
  s.take at_ ++ m ++ s.drop (at_ + m.length)

/-- `s ^ rep(b, len s)`: every byte XOR-ed with `b` (R15, R221). -/
def xorAll (b : Byte) (s : List Byte) : List Byte := s.map (· ^^^ b)

end Sys2Proof.Machine
end

