-- ==== Sys2Proof/Syntax.lean ====
section
/-! DEFINITION. The syntax: the twelve commands of spec/opcode_table.json (spec 30 rule R111), the window's register
names (10 rule R32), and the statements of a host program (30 rules R121 and R122). -/

namespace Sys2Proof

/-- One constructor per row of the opcode table, with the operands its rule uses (R114, R119). A handle is
the CTX number 0..255 (R113). Fields a command ignores are no operands of it (log entry 14). -/
inductive Instr
  | ctxsize (F : Family)
  | alloc (F : Family)
  | init (F : Family) (h : Nat)
  | update (F : Family) (h : Nat)
  | finalize (F : Family) (h : Nat)
  | exportCtx (F : Family) (h : Nat)
  | importCtx (F : Family) (h : Nat)
  | cleanup (h : Nat)
  | hmacInit (F : Family)
  | hmacUpdate (F : Family) (h : Nat)
  | hmacFinalize (F : Family) (h : Nat)
  | hmacCleanup (h : Nat)
  deriving DecidableEq, Repr

namespace Instr

/-- The CTX operand, for the commands that have one (R113). -/
def handle? : Instr → Option Nat
  | .ctxsize _ => none
  | .alloc _ => none
  | .init _ h => some h
  | .update _ h => some h
  | .finalize _ h => some h
  | .exportCtx _ h => some h
  | .importCtx _ h => some h
  | .cleanup h => some h
  | .hmacInit _ => none
  | .hmacUpdate _ h => some h
  | .hmacFinalize _ h => some h
  | .hmacCleanup h => some h

/-- The FAMILY operand, for the commands that use or check it (R112). -/
def family? : Instr → Option Family
  | .ctxsize F => some F
  | .alloc F => some F
  | .init F _ => some F
  | .update F _ => some F
  | .finalize F _ => some F
  | .exportCtx F _ => some F
  | .importCtx F _ => some F
  | .cleanup _ => none
  | .hmacInit F => some F
  | .hmacUpdate F _ => some F
  | .hmacFinalize F _ => some F
  | .hmacCleanup _ => none

/-- The same command on handle `h` (the `c<h>` of R122's MAC expansion). -/
def withHandle (h : Nat) : Instr → Instr
  | .ctxsize F => .ctxsize F
  | .alloc F => .alloc F
  | .init F _ => .init F h
  | .update F _ => .update F h
  | .finalize F _ => .finalize F h
  | .exportCtx F _ => .exportCtx F h
  | .importCtx F _ => .importCtx F h
  | .cleanup _ => .cleanup h
  | .hmacInit F => .hmacInit F
  | .hmacUpdate F _ => .hmacUpdate F h
  | .hmacFinalize F _ => .hmacFinalize F h
  | .hmacCleanup _ => .hmacCleanup h

/-- The mnemonic of the command's opcode-table row (R111). -/
def mnemonic : Instr → String
  | .ctxsize _ => "CTXSIZE"
  | .alloc _ => "ALLOC"
  | .init _ _ => "INIT"
  | .update _ _ => "UPDATE"
  | .finalize _ _ => "FINALIZE"
  | .exportCtx _ _ => "EXPORT"
  | .importCtx _ _ => "IMPORT"
  | .cleanup _ => "CLEANUP"
  | .hmacInit _ => "HMAC_INIT"
  | .hmacUpdate _ _ => "HMAC_UPDATE"
  | .hmacFinalize _ _ => "HMAC_FINALIZE"
  | .hmacCleanup _ => "HMAC_CLEANUP"

/-- The family suffix of the assembler syntax (R120). -/
def suffix : Family → String
  | .f256 => ".256"
  | .f512 => ".512"

/-- The assembler text of a command: `MNEMONIC[.256|.512] [c<h>]`, the suffix where FAMILY is used or
checked, the handle where CTX is used (R120). -/
def asmText (i : Instr) : String :=
  i.mnemonic ++ ((i.family?.map suffix).getD "") ++ ((i.handle?.map fun h => " c" ++ toString h).getD "")

end Instr

/-- The named registers of the window (R32, R121). -/
inductive Reg
  | id
  | cmd
  | addr
  | len
  | status
  | rdata
  | caps
  deriving DecidableEq, Repr

/-- The window byte offset of a named register (R32). -/
def Reg.offset : Reg → Nat
  | .id => 0x00
  | .cmd => 0x04
  | .addr => 0x08
  | .len => 0x0C
  | .status => 0x10
  | .rdata => 0x14
  | .caps => 0x18

/-- A host agent's statement (R121, R122). `winRead` and `winWrite` are accesses of `width` bytes at byte
offset `off` of the register window; `load` and `store` access one byte of the host's physical address
space, the agent's own means of reaching host memory (R80; log entry 12). -/
inductive HostStmt
  /-- `RD`: read the window; the value becomes the agent's last value read. -/
  | winRead (off width : Nat)
  /-- `WR`: write the window. -/
  | winWrite (off width : Nat) (v : Word)
  /-- Read one byte at a physical address. -/
  | load (a : Nat)
  /-- Write one byte at a physical address. -/
  | store (a : Nat) (b : Byte)
  /-- `WAIT`: poll STATUS until BUSY = 0. -/
  | wait
  /-- `EXPECT r`: read STATUS and assert that bits 7:4 are `r`. -/
  | expect (r : Nat)
  /-- `RD RDATA → h`: keep the returned handle for later commands. -/
  | readHandle
  /-- Issue a command on the handle kept by `readHandle` (the `c<h>` of MAC, R122). -/
  | cmdKept (i : Instr)
  deriving DecidableEq, Repr

namespace HostStmt

/-- `WR <reg>, <imm32>` (R121). -/
def wr (r : Reg) (v : Word) : HostStmt := .winWrite r.offset 4 v

/-- `RD <reg>` (R121). -/
def rd (r : Reg) : HostStmt := .winRead r.offset 4

/-- `SETA a` (R122). -/
def seta (a : Word) : HostStmt := wr .addr a

/-- `SETL n` (R122). -/
def setl (n : Word) : HostStmt := wr .len n

end HostStmt

/-- Whose turn a step is: the engine's, host agent `k`'s, or a platform reset (R17, R300). -/
inductive Turn
  | engine
  | host (k : Nat)
  | reset
  deriving DecidableEq, Repr

end Sys2Proof
end

