-- ==== Sys2Proof/WellFormed.lean ====
section
/-! DEFINITION. Which syntax is well formed: the operand ranges that the types do not already fix. -/

namespace Sys2Proof

/-- A command is well formed when its handle fits the 8-bit CTX field: 0..255 (R113). A handle above NCTX is
well formed: the word is legal and the command raises InvalidArguments. -/
abbrev Instr.WellFormed (i : Instr) : Prop := ∀ h ∈ i.handle?, h < 256

/-- The accesses of the window that are defined: 32 bits wide, at a multiple of 4 (R55), and inside the 256 bytes.
DESIGN CHOICE: an access at an offset of 256 or more lies outside the window, of which R55 and R291 do not
speak; it is not one of these, so it is refused as they are (log entry 13). -/
abbrev alignedWindowAccess (off width : Nat) : Prop :=
  width = 4 ∧ off % 4 = 0 ∧ off < Config.windowSize

/-- A host statement is well formed when its window access is aligned and 32-bit (R55), its memory address
exists (R80), its expected result fits RESULT's four bits (R36), and its command is well formed. -/
def HostStmt.wellFormed : HostStmt → Bool
  | .winRead off width => decide (alignedWindowAccess off width)
  | .winWrite off width _ => decide (alignedWindowAccess off width)
  | .load a => decide (a < Config.memSize)
  | .store a _ => decide (a < Config.memSize)
  | .wait => true
  | .expect r => decide (r < 16)
  | .readHandle => true
  | .cmdKept i => decide i.WellFormed

end Sys2Proof
end

