-- ==== Sys2Proof/Decode.lean ====
section
/-! DEFINITION. The command word's decoder, total on all 2^32 words (spec 30 rules R110, R115, R116, R119), its encoder
(R110, R120), and the pseudo-instructions that expand to command words (R122). -/

namespace Sys2Proof

/-- Why a word is illegal (R116). Every reason raises IllegalCommand (R273). -/
inductive Illegal
  /-- A bit of 15:9 or 31:24 is set. -/
  | reservedBits
  /-- The opcode is 0x00 or one of 0x0D..0xFF. -/
  | reservedOpcode
  deriving DecidableEq, Repr

/-- OPCODE, bits 7:0 (R110). -/
def opField (v : Word) : Nat := (v.extractLsb' 0 8).toNat

/-- FAMILY, bit 8 (R110, R112). -/
def famField (v : Word) : Family := Family.ofBit (v.getLsbD 8)

/-- CTX, bits 23:16, zero-extended (R110, R113). -/
def ctxField (v : Word) : Nat := (v.extractLsb' 16 8).toNat

/-- RSV0, bits 15:9 (R110). -/
def rsv0Field (v : Word) : Nat := (v.extractLsb' 9 7).toNat

/-- RSV1, bits 31:24 (R110). -/
def rsv1Field (v : Word) : Nat := (v.extractLsb' 24 8).toNat

/-- The opcode map (R111, R119). -/
def decodeOp (op : Nat) (F : Family) (h : Nat) : Except Illegal Instr :=
  match op with
  | 0x01 => .ok (.ctxsize F)
  | 0x02 => .ok (.alloc F)
  | 0x03 => .ok (.init F h)
  | 0x04 => .ok (.update F h)
  | 0x05 => .ok (.finalize F h)
  | 0x06 => .ok (.exportCtx F h)
  | 0x07 => .ok (.importCtx F h)
  | 0x08 => .ok (.cleanup h)
  | 0x09 => .ok (.hmacInit F)
  | 0x0A => .ok (.hmacUpdate F h)
  | 0x0B => .ok (.hmacFinalize F h)
  | 0x0C => .ok (.hmacCleanup h)
  | _ => .error .reservedOpcode

/-- `Decode(v)` (R119): the reserved fields first, then the opcode. -/
def decode (v : Word) : Except Illegal Instr :=
  if rsv0Field v ≠ 0 ∨ rsv1Field v ≠ 0 then .error .reservedBits
  else decodeOp (opField v) (famField v) (ctxField v)

/-- The mask of the legality test (R116, R123). -/
def legalMask : Word := 0xFF00FEFF#32

/-- The OPCODE of a command (R111). -/
def Instr.opcode : Instr → Nat
  | .ctxsize _ => 0x01
  | .alloc _ => 0x02
  | .init _ _ => 0x03
  | .update _ _ => 0x04
  | .finalize _ _ => 0x05
  | .exportCtx _ _ => 0x06
  | .importCtx _ _ => 0x07
  | .cleanup _ => 0x08
  | .hmacInit _ => 0x09
  | .hmacUpdate _ _ => 0x0A
  | .hmacFinalize _ _ => 0x0B
  | .hmacCleanup _ => 0x0C

/-- The word `op | F<<8 | h<<16` the assembler emits (R120). -/
def packWord (op F h : Nat) : Word :=
  BitVec.ofNat 32 op ||| (BitVec.ofNat 32 F <<< 8) ||| (BitVec.ofNat 32 h <<< 16)

/-- The word of a command. An omitted suffix assembles FAMILY = 0, an omitted handle CTX = 0 (R120). -/
def encode (i : Instr) : Word :=
  packWord i.opcode ((i.family?.map Family.code).getD 0) (i.handle?.getD 0)

/-- The instruction the decoder reads from a table word, bit 0 the least significant bit of the command
word (R110): the command is exactly one 32-bit word (R118). -/
def decodeTableWord (nbits w : Nat) : Option Instr :=
  match decode (BitVec.ofNat 32 (w % 2 ^ nbits)) with
  | .ok i => some i
  | .error _ => none

namespace HostStmt

/-- `<command>`, short for `WR CMD, <word of the command>` (R121). -/
def cmd (i : Instr) : HostStmt := wr .cmd (encode i)

/-- `DO <command>` (R122). -/
def doCmd (i : Instr) : List HostStmt := [cmd i, .wait]

/-- `DO <command>, a, n` (R122). -/
def doCmdAt (i : Instr) (a n : Word) : List HostStmt := [seta a, setl n] ++ doCmd i

/-- `DO <command> c<h>, a, n` on the kept handle. -/
def doKeptAt (i : Instr) (a n : Word) : List HostStmt := [seta a, setl n, .cmdKept i, .wait]

/-- `HASH.<f> c<h>, a, n, o` (R122). -/
def hash (F : Family) (h : Nat) (a n o : Word) : List HostStmt :=
  doCmd (.init F h) ++ doCmdAt (.update F h) a n ++ doCmdAt (.finalize F h) o 0

/-- `MAC.<f> a_k, n_k, a, n, o` (R122): the handle is the one HMAC_INIT returns in RDATA. -/
def mac (F : Family) (ak nk a n o : Word) : List HostStmt :=
  doCmdAt (.hmacInit F) ak nk ++ [.readHandle] ++ doKeptAt (.hmacUpdate F 0) a n
    ++ doKeptAt (.hmacFinalize F 0) o 0 ++ [.cmdKept (.hmacCleanup 0), .wait]

end HostStmt

end Sys2Proof
end

