-- ==== Sys2Proof/Machine/State.lean ====
section
/-! DEFINITION. The machine's state as plain data (spec 10), its value after reset (70 rule R300), and the reasons a step
stops. -/

namespace Sys2Proof.Machine

/-- What makes a run claim nothing, or stops it. -/
inductive Fault
  /-- Put into the run's fault set, never an outcome of a step, by a host access to the pending command's DMA
  range while BUSY = 1 (R290, R307). Safe: a run with it satisfies no claim. -/
  | hazardDmaRange
  /-- Raised by a host access at a physical address that is neither in the window nor one of host memory's
  2^32 addresses (R80; log entry 13). Safe. -/
  | noSuchAddress
  /-- Raised by a host program's EXPECT whose assertion fails: a harness check, no engine effect (R122; log entry
  12). Safe. -/
  | expectFailed
  deriving DecidableEq, Repr

/-- Why a step has no meaning. -/
inductive Refusal
  /-- An instruction with no meaning yet; raised by `exec`'s arms only. Safe. -/
  | notModelled (mnemonic : String)
  /-- A host access to the window that is not an aligned 32-bit access: the response is the platform bus's
  and not specified (R55, R291). Also a `winRead` or `winWrite` at an offset of 256 or more: DESIGN CHOICE (log
  entry 13). Safe. -/
  | windowAccess
  deriving DecidableEq, Repr

/-- Result codes, STATUS bits 7:4 (R271). -/
inductive Result
  | ok
  | invalidArguments
  | outOfMemory
  | invalidState
  | illegalCommand
  | busError
  deriving DecidableEq, Repr

/-- A slot's kind (R44). -/
inductive Kind
  | none
  | digest
  | hmac
  deriving DecidableEq, Repr

/-- A slot's phase (R43). -/
inductive Phase
  | uninit
  | active
  | finalized
  deriving DecidableEq, Repr

/-- A DigestContext (R40): the chaining value, the block buffer (BLOCK bytes), `bl` the valid bytes in it,
and `tl` the bytes consumed. -/
structure DigestCtx where
  state : Words 64
  buf : List Byte
  bl : Nat
  tl : Counter
  deriving DecidableEq, Repr

/-- ZDC, the zero DigestContext of a family (R40, R41). -/
def DigestCtx.zero (F : Family) : DigestCtx :=
  { state := Words.zero 64, buf := List.replicate F.block 0, bl := 0, tl := 0 }

/-- A context slot (R44); `dc` is the inner and `oc` the outer context of an HMAC slot (R42). -/
structure Slot where
  kind : Kind
  fam : Family
  phase : Phase
  dc : DigestCtx
  oc : DigestCtx
  deriving DecidableEq, Repr

/-- The free value of a slot (R44). -/
def Slot.free : Slot :=
  { kind := .none, fam := .f256, phase := .uninit, dc := .zero .f256, oc := .zero .f256 }

/-- A host agent: the statements it has still to run, the last value it read, and the handle it keeps
(R121, R122; log entry 12). -/
structure HostAgent where
  prog : List HostStmt
  got : Word
  handle : Nat
  deriving DecidableEq, Repr

/-- A host agent with nothing to do. -/
def HostAgent.idle : HostAgent := { prog := [], got := 0, handle := 0 }

/-- The whole model's state (10: window registers, latch, slot bank, host memory, fault set), the platform's
parameters, the host agents, and the model's own `schedule`, `raced` and `freeCount` (log entries 5, 7, 8). -/
structure State where
  cmdLast : Word
  addr : Word
  len : Word
  rdata : Word
  dropped : Bool
  result : Result
  pend : Bool
  lcmd : Word
  laddr : Word
  llen : Word
  slots : Vector Slot Config.nctx
  mem : List Host.Cell
  faults : List Fault
  plat : Platform
  hosts : List HostAgent
  schedule : List Turn
  raced : List Nat
  freeCount : Nat
  deriving DecidableEq, Repr

/-- The machine right after reset (R300): every window register, the latch and every slot at the spec's value,
memory with nothing listed; the platform, the host agent and the model's own fields at the values of log
entries 1, 2, 5, 7, 8 and 16. -/
def State.reset : State :=
  { cmdLast := 0
    addr := 0
    len := 0
    rdata := 0
    dropped := false
    result := .ok
    pend := false
    lcmd := 0
    laddr := 0
    llen := 0
    slots := Vector.replicate Config.nctx Slot.free
    mem := []
    faults := []
    plat := Config.platform
    hosts := [HostAgent.idle]
    schedule := []
    raced := []
    freeCount := 0 }

end Sys2Proof.Machine
end

