-- ==== Sys2Proof/Machine/Streamer.lean ====
section
/-! DEFINITION. The padded_block_streamer, the length_field_encoder and the digest serialiser (spec 40 rules R140 to R153),
pure functions of the primitives `P` (`Compress` and `IV`, 00 rule R13). -/

namespace Sys2Proof.Machine

/-- `Compress_F(st, blk)` on a chaining value in the 512-bit shape (R140, R41). -/
def compress (P : Prims) (F : Family) (st : Words 64) (blk : List Byte) : Words 64 :=
  match F with
  | .f256 => (P.compress256 (st.map (·.setWidth 32)) blk).map (·.setWidth 64)
  | .f512 => P.compress512 st blk

/-- `IV_F` in the 512-bit shape (R141, R41). -/
def iv (P : Prims) : Family → Words 64
  | .f256 => P.iv256.map (·.setWidth 64)
  | .f512 => P.iv512

/-- `InitDC(F)` (R141). -/
def initDC (P : Prims) (F : Family) : DigestCtx :=
  { state := iv P F, buf := zeros F.block, bl := 0, tl := 0 }

/-- The first part of Absorb: top up a partly filled buffer, and compress and clear it when that fills it
(R142, R143). Answers the context and the bytes not yet taken; `tl` is left as it was. -/
def topUp (P : Prims) (F : Family) (dc : DigestCtx) (m : List Byte) : DigestCtx × List Byte :=
  if dc.bl = 0 then (dc, m)
  else
    let t := min m.length (F.block - dc.bl)
    let buf := splice dc.buf dc.bl (m.take t)
    if dc.bl + t = F.block then
      ({ dc with state := compress P F dc.state buf, buf := zeros F.block, bl := 0 }, m.drop t)
    else ({ dc with buf := buf, bl := dc.bl + t }, m.drop t)

/-- Compress the first `k` whole blocks of `m`, straight from the input (R142). -/
def compressBlocks (P : Prims) (F : Family) : Nat → Words 64 → List Byte → Words 64
  | 0, st, _ => st
  | k + 1, st, m => compressBlocks P F k (compress P F st (m.take F.block)) (m.drop F.block)

/-- `Absorb(F, dc, m)` (R142). -/
def absorb (P : Prims) (F : Family) (dc : DigestCtx) (m : List Byte) : DigestCtx :=
  let (d, r) := topUp P F dc m
  let k := r.length / F.block
  let tail := r.drop (k * F.block)
  { state := compressBlocks P F k d.state r
    buf := splice d.buf d.bl tail
    bl := d.bl + tail.length
    tl := dc.tl + BitVec.ofNat Config.ctrBits m.length }

/-- `LenField(F, tl)` (R147): the bit count, formed without loss, then truncated to LENLEN bytes. -/
def lenField (F : Family) (tl : Counter) : List Byte :=
  beEnc F.lenLen (tl.toNat * 8 % 2 ^ (8 * F.lenLen))

/-- The one or two final blocks FinishState compresses (R146, R149, R154): the marker 0x80 after the buffered
bytes, an extra block exactly when `B − p − 1 < L`, and the length field in the last L bytes. -/
def finalBlocks (F : Family) (dc : DigestCtx) : List (List Byte) :=
  let blk := splice dc.buf dc.bl [0x80#8]
  if F.block - dc.bl - 1 < F.lenLen then
    [blk, splice (zeros F.block) (F.block - F.lenLen) (lenField F dc.tl)]
  else [splice blk (F.block - F.lenLen) (lenField F dc.tl)]

/-- `FinishState(F, dc)` (R149). -/
def finishState (P : Prims) (F : Family) (dc : DigestCtx) : Words 64 :=
  (finalBlocks F dc).foldl (compress P F) dc.state

/-- `Ser(F, st)` (R150): the eight words, word 0 first, each `BE_WB`. -/
def ser (F : Family) (st : Words 64) : List Byte :=
  st.toList.flatMap fun w => beEnc F.wordBytes w.toNat

/-- `FinalDC(dc, st)` (R151). -/
def finalDC (F : Family) (dc : DigestCtx) (st : Words 64) : DigestCtx :=
  { state := st, buf := zeros F.block, bl := 0, tl := dc.tl }

/-- `Digest_F(m)` (R153). -/
def digest (P : Prims) (F : Family) (m : List Byte) : List Byte :=
  ser F (finishState P F (absorb P F (initDC P F) m))

end Sys2Proof.Machine
end

