-- ==== Sys2Proof/Machine/Ops.lean ====
section
/-! DEFINITION. The named operations over memory, slots and results: DMA reads and writes (spec 20), slot access and FreeSlot
(10 rule R44, 43 rule R252), completion and raising a result (10 rule R50, 60 rule R270), and the check
primitives (60 rule R272). -/

namespace Sys2Proof.Machine

/-! ### Host memory -/

/-- Host memory: the listed bytes by strictly rising address; every other address reads as `background`. -/
abbrev Memory := List Host.Cell

/-- What a byte of host memory that nothing has written reads as. DESIGN CHOICE: zero (log entry 1). -/
def Memory.background : Byte := 0

/-- The byte at address `a`. -/
def Memory.read : Memory → Nat → Byte
  | [], _ => Memory.background
  | (k, v) :: rest, a => if k = a then v else Memory.read rest a

/-- The entry `(a, b)` put where the rising order of addresses wants it. -/
def Memory.insert : Memory → Nat → Byte → Memory
  | [], a, b => [(a, b)]
  | (k, v) :: rest, a, b => if a < k then (a, b) :: (k, v) :: rest else (k, v) :: Memory.insert rest a b

/-- Memory with the byte at `a` set to `b`: what was listed for `a` goes, and `b` is listed unless an unlisted
address reads as it, so the canonical form is kept. -/
def Memory.put (m : Memory) (a : Nat) (b : Byte) : Memory :=
  let rest := m.filter fun c => c.1 ≠ a
  if b = Memory.background then rest else Memory.insert rest a b

/-- `MemRead(a, n)` (R16, R82): byte `i` is the byte at address `a + i`. -/
def Memory.readRange (m : Memory) (a n : Nat) : List Byte :=
  (List.range n).map fun i => Memory.read m (a + i)

/-- `MemWrite(a, len s, s)` (R16, R82): byte `i` of the string goes to address `a + i`. -/
def Memory.writeRange (m : Memory) (a : Nat) : List Byte → Memory
  | [] => m
  | b :: bs => Memory.writeRange (Memory.put m a b) (a + 1) bs

/-- The canonical form: addresses strictly rising, and no entry equal to what an unlisted address reads as. -/
abbrev Memory.wf (m : Memory) : Prop :=
  m.Pairwise (fun x y => x.1 < y.1) ∧ ∀ c ∈ m, c.2 ≠ Memory.background

/-- The DMA write of the string `bs` at `a`. -/
def State.storeBytes (s : State) (a : Nat) (bs : List Byte) : State :=
  { s with mem := Memory.writeRange s.mem a bs }

/-- `n` fresh free bytes, counted from `k` (R301, R307). -/
def freeBytes (k n : Nat) : List Byte := (List.range n).map fun i => Config.freeByte (k + i)

/-! ### The platform's parameters -/

/-- `MemAdmit(d, a, n)` (R84): true on an empty range, else when one admitted range covers it (log entry 4). -/
def State.admits (s : State) (d : Dir) (a n : Nat) : Bool :=
  n == 0 || s.plat.admitted.any fun r => r.allows d && decide (r.base ≤ a) && decide (a + n ≤ r.base + r.size)

/-- The `Compress` and `IV` of the platform's compression unit (R13; log entry 3). -/
def State.prims (s : State) : Prims :=
  match s.plat.unit with
  | .supplied => Config.prims
  | .fips => Fips.prims

/-! ### Slots -/

/-- `slot[h]`; a handle that names no slot reads as the free value (R44). -/
def State.slot (s : State) : Nat → Slot
  | 0 => Slot.free
  | k + 1 => (s.slots[k]?).getD Slot.free

/-- `slot[h] <- v`; nothing for a handle that names no slot. -/
def State.setSlot (s : State) (h : Nat) (v : Slot) : State :=
  match h with
  | 0 => s
  | k + 1 => { s with slots := s.slots.setIfInBounds k v }

/-- `FreeSlot()` (R252): the lowest handle 1..NCTX of a free slot. -/
def State.freeSlot (s : State) : Option Nat :=
  (List.range' 1 Config.nctx).find? fun h => (s.slot h).kind == .none

/-! ### Ending a command -/

/-- A command's completion (R50): RESULT, RDATA and PEND <- 0, committed together. -/
def State.finish (s : State) (r : Result) (d : Word) : State :=
  { s with result := r, rdata := d, pend := false }

/-- `complete(Ok, d)` (R16). -/
def State.complete (s : State) (d : Word) : State := s.finish .ok d

/-- `raise r` (R270): the command ends with result `r` and RDATA = 0 and no other effect. This is the engine's
one error entry: it saves no state and transfers no control, so there is no return from it (R280, R281). -/
def State.raise (s : State) (r : Result) : State := s.finish r 0

/-! ### The check primitives (R272): `none` passes, `some r` is the result raised -/

/-- `ChkCtx(h, k)` (R272 check 1). -/
def State.chkCtx (s : State) (h : Nat) (k : Kind) : Option Result :=
  if h = 0 ∨ Config.nctx < h ∨ (s.slot h).kind ≠ k then some .invalidArguments else none

/-- `ChkFam(h, F)` (R272 check 2). -/
def State.chkFam (s : State) (h : Nat) (F : Family) : Option Result :=
  if (s.slot h).fam ≠ F then some .invalidArguments else none

/-- `ChkPhase(h, S)` (R272 check 3). -/
def State.chkPhase (s : State) (h : Nat) (S : List Phase) : Option Result :=
  if (s.slot h).phase ∉ S then some .invalidState else none

/-- `ChkRange(a, n)` (R272 check 4, R82, R83). -/
def chkRange (a n : Nat) : Option Result :=
  if 0 < n ∧ (a = 0 ∨ Config.memSize < a + n) then some .invalidArguments else none

/-- `ChkAdmit(d, a, n)` (R272 check 5, R84, R277). -/
def State.chkAdmit (s : State) (d : Dir) (a n : Nat) : Option Result :=
  if s.admits d a n then none else some .busError

/-- The first check that fails, and only that one (R272). -/
def firstFailure (checks : List (Option Result)) : Option Result := checks.findSome? id

/-- Run the checks in order, raise the first failure, else go on with `k` (R272). -/
def State.guarded (s : State) (checks : List (Option Result))
    (k : Host.Outcome State Fault Refusal) : Host.Outcome State Fault Refusal :=
  match firstFailure checks with
  | some r => .next (s.raise r)
  | none => k

/-- Apply `f` to the state of a next-state outcome. -/
def mapNext (f : State → State) : Host.Outcome State Fault Refusal → Host.Outcome State Fault Refusal
  | .next s => .next (f s)
  | .fault r => .fault r
  | .refused r => .refused r

end Sys2Proof.Machine
end

