-- ==== Sys2Proof/Machine/Operands.lean ====
section
/-! DEFINITION. Operand assembly (spec 30 rules R114, R115), transfer widths (20 rule R90), the DMA range of the pending
command (70 rule R307), and the checks each command lists (60 rule R272). -/

namespace Sys2Proof.Machine

/-- The operand a = LADDR, zero-extended (R115). -/
def State.opAddr (s : State) : Nat := s.laddr.toNat

/-- The operand n = LLEN, zero-extended (R115). -/
def State.opLen (s : State) : Nat := s.llen.toNat

/-- The bytes a command moves, `n` being the latched LEN (R90). -/
def transferWidth (i : Instr) (n : Nat) : Nat :=
  match i with
  | .ctxsize _ => 0
  | .alloc _ => 0
  | .init _ _ => 0
  | .update _ _ => n
  | .finalize F _ => F.digLen
  | .exportCtx F _ => F.imageSize
  | .importCtx F _ => F.imageSize
  | .cleanup _ => 0
  | .hmacInit _ => n
  | .hmacUpdate _ _ => n
  | .hmacFinalize F _ => F.digLen
  | .hmacCleanup _ => 0

/-- The direction in which a command moves bytes, for those that move any (R90). -/
def transferDir : Instr → Option Dir
  | .ctxsize _ => none
  | .alloc _ => none
  | .init _ _ => none
  | .update _ _ => some .read
  | .finalize _ _ => some .write
  | .exportCtx _ _ => some .write
  | .importCtx _ _ => some .read
  | .cleanup _ => none
  | .hmacInit _ => some .read
  | .hmacUpdate _ _ => some .read
  | .hmacFinalize _ _ => some .write
  | .hmacCleanup _ => none

/-- Whether address `x` lies in the DMA range of the pending command, whatever the outcome of its checks
(R307). An illegal word has no transfer. -/
def State.inDmaRange (s : State) (x : Nat) : Bool :=
  s.pend && match decode s.lcmd with
    | .ok i => decide (s.opAddr ≤ x) && decide (x < s.opAddr + transferWidth i s.opLen)
        && decide (x < Config.memSize)
    | .error _ => false

/-- ChkRange and ChkAdmit on the range a command moves (R272 checks 4 and 5). -/
def State.rangeChecks (s : State) (d : Dir) (n : Nat) : List (Option Result) :=
  [chkRange s.opAddr n, s.chkAdmit d s.opAddr n]

/-- Checks 1 to 5 of each command, in R272's order and as its table lists them. -/
def State.checks (s : State) : Instr → List (Option Result)
  | .ctxsize _ => []
  | .alloc _ => []
  | .init F h => [s.chkCtx h .digest, s.chkFam h F]
  | .update F h =>
    [s.chkCtx h .digest, s.chkFam h F, s.chkPhase h [.active]] ++ s.rangeChecks .read s.opLen
  | .finalize F h =>
    [s.chkCtx h .digest, s.chkFam h F, s.chkPhase h [.active]] ++ s.rangeChecks .write F.digLen
  | .exportCtx F h =>
    [s.chkCtx h .digest, s.chkFam h F, s.chkPhase h [.active, .finalized]]
      ++ s.rangeChecks .write F.imageSize
  | .importCtx F h => [s.chkCtx h .digest, s.chkFam h F] ++ s.rangeChecks .read F.imageSize
  | .cleanup h => [s.chkCtx h .digest]
  | .hmacInit _ => s.rangeChecks .read s.opLen
  | .hmacUpdate F h =>
    [s.chkCtx h .hmac, s.chkFam h F, s.chkPhase h [.active]] ++ s.rangeChecks .read s.opLen
  | .hmacFinalize F h =>
    [s.chkCtx h .hmac, s.chkFam h F, s.chkPhase h [.active]] ++ s.rangeChecks .write F.digLen
  | .hmacCleanup h => [s.chkCtx h .hmac]

/-- `MemRead` of `n` bytes at the latched address (R16). -/
def State.operandBytes (s : State) (n : Nat) : List Byte := Memory.readRange s.mem s.opAddr n

end Sys2Proof.Machine
end

