-- ==== Sys2Proof/Machine/Flags.lean ====
section
/-! DEFINITION. The register window (spec 10 rules R32 to R39, R51, R52, R55, R56): the STATUS flags and result codes, what
each offset reads as, and what a write to it does. -/

namespace Sys2Proof.Machine

/-- The numeric result code in STATUS bits 7:4 (R271). -/
def Result.code : Result → Nat
  | .ok => 0
  | .invalidArguments => 1
  | .outOfMemory => 2
  | .invalidState => 3
  | .illegalCommand => 4
  | .busError => 5

/-- STATUS (R36): BUSY in bit 0, DROPPED in bit 1, RESULT in bits 7:4, every other bit 0. -/
def State.statusWord (s : State) : Word :=
  (if s.pend then 1#32 else 0#32) ||| (if s.dropped then 2#32 else 0#32)
    ||| (BitVec.ofNat 32 s.result.code <<< 4)

/-- ID (R33), the ASCII bytes "SHA2". -/
def idWord : Word := 0x53484132#32

/-- CAPS (R39): NCTX in bits 7:0, bit 8 set for CTR_BITS = 64, bits 9 and 10 for the two families. -/
def capsWord : Word :=
  BitVec.ofNat 32 Config.nctx ||| (if Config.ctrBits = 64 then 0x100#32 else 0#32) ||| 0x200#32 ||| 0x400#32

/-- The value a 32-bit read at byte offset `off` of the window returns (R32); it has no side effect (R92).
Reserved offsets read 0 (R55). -/
def State.readWindow (s : State) (off : Nat) : Word :=
  match off with
  | 0x00 => idWord
  | 0x04 => s.cmdLast
  | 0x08 => s.addr
  | 0x0C => s.len
  | 0x10 => s.statusWord
  | 0x14 => s.rdata
  | 0x18 => capsWord
  | _ => 0

/-- Acceptance of the command word `v` (R51): the word is kept, and it and the two argument registers are
latched. Nothing is decoded or checked yet. -/
def State.accept (s : State) (v : Word) : State :=
  { s with cmdLast := v, lcmd := v, laddr := s.addr, llen := s.len, pend := true }

/-- A host write of `v` to CMD: accepted when idle (R51), dropped when busy (R52). -/
def State.writeCmd (s : State) (v : Word) : State :=
  if s.pend then { s with dropped := true } else s.accept v

/-- A host write of `v` to STATUS (R37): bit 1 clears DROPPED, nothing else changes. -/
def State.writeStatus (s : State) (v : Word) : State :=
  if v.getLsbD 1 then { s with dropped := false } else s

/-- A 32-bit write of `v` at byte offset `off` of the window (R32, R92): writes to ID, RDATA, CAPS and the
reserved offsets are ignored (R55). -/
def State.writeWindow (s : State) (off : Nat) (v : Word) : State :=
  match off with
  | 0x04 => s.writeCmd v
  | 0x08 => { s with addr := v }
  | 0x0C => { s with len := v }
  | 0x10 => s.writeStatus v
  | _ => s

end Sys2Proof.Machine
end

