-- ==== Sys2Proof/Machine/Digest.lean ====
section
/-! DEFINITION. The digest commands INIT, UPDATE and FINALIZE (spec 40 rules R155 to R157). -/

namespace Sys2Proof.Machine

/-- INIT (R155): establish the initial chaining value in a DIGEST slot. -/
def execInit (F : Family) (h : Nat) (s : State) : Host.Outcome State Fault Refusal :=
  s.guarded (s.checks (.init F h)) <|
    .next ((s.setSlot h
      { s.slot h with dc := initDC s.prims F, oc := .zero F, phase := .active }).complete 0)

/-- UPDATE (R156): absorb LEN message bytes into a DIGEST slot. -/
def execUpdate (F : Family) (h : Nat) (s : State) : Host.Outcome State Fault Refusal :=
  s.guarded (s.checks (.update F h)) <|
    .next ((s.setSlot h
      { s.slot h with dc := absorb s.prims F (s.slot h).dc (s.operandBytes s.opLen) }).complete 0)

/-- FINALIZE (R157): pad, compress the last block or blocks, and write the digest. -/
def execFinalize (F : Family) (h : Nat) (s : State) : Host.Outcome State Fault Refusal :=
  s.guarded (s.checks (.finalize F h)) <|
    let st := finishState s.prims F (s.slot h).dc
    .next (((s.storeBytes s.opAddr (ser F st)).setSlot h
      { s.slot h with dc := finalDC F (s.slot h).dc st, phase := .finalized }).complete 0)

end Sys2Proof.Machine
end

