-- ==== Sys2Proof/Machine/Image.lean ====
section
/-! DEFINITION. The context image (spec 41 rules R190 to R192): its layout and its parse. -/

namespace Sys2Proof.Machine

/-- The phase code (R43). -/
def Phase.code : Phase → Nat
  | .uninit => 0
  | .active => 1
  | .finalized => 2

/-- `Image(F, dc, ph)` (R190): state, buffer, buffered_len, total_len, phase, family, two zero bytes. -/
def image (F : Family) (dc : DigestCtx) (ph : Phase) : List Byte :=
  ser F dc.state ++ dc.buf ++ beEnc 8 dc.bl ++ beEnc 8 dc.tl.toNat
    ++ [BitVec.ofNat 8 ph.code, BitVec.ofNat 8 F.code, 0, 0]

/-- The state words of an image (R192). -/
def imageState (F : Family) (s : List Byte) : Words 64 :=
  Words.ofFn fun i => BitVec.ofNat 64 (beDec (slice s (i * F.wordBytes) F.wordBytes))

/-- The buffer field of an image (R190). -/
def imageBuf (F : Family) (s : List Byte) : List Byte := slice s (8 * F.wordBytes) F.block

/-- The buffered_len field of an image (R190). -/
def imageBl (F : Family) (s : List Byte) : Nat := beDec (slice s (8 * F.wordBytes + F.block) 8)

/-- The total_len field of an image (R190). -/
def imageTl (F : Family) (s : List Byte) : Nat := beDec (slice s (8 * F.wordBytes + F.block + 8) 8)

/-- Byte `k` of the four trailing bytes of an image: phase, family, reserved, reserved (R190). -/
def imageTail (F : Family) (s : List Byte) (k : Nat) : Byte :=
  s.getD (8 * F.wordBytes + F.block + 16 + k) 0

/-- The validation an image must pass (R192, V1 to V8). -/
def imageValid (F : Family) (s : List Byte) : Bool :=
  let ph := (imageTail F s 0).toNat
  let bl := imageBl F s
  let tl := imageTl F s
  (ph == 1 || ph == 2)
    && (imageTail F s 1).toNat == F.code
    && (imageTail F s 2 == 0 && imageTail F s 3 == 0)
    && decide (bl < F.block)
    && ((imageBuf F s).drop bl).all (· == 0)
    && !(ph == 1 && bl != tl % F.block)
    && !(ph == 2 && bl != 0)
    && decide (tl < 2 ^ Config.ctrBits)

/-- `Parse(F, s)` (R192). -/
def parse (F : Family) (s : List Byte) : Option (DigestCtx × Phase) :=
  if imageValid F s then
    some ({ state := imageState F s
            buf := imageBuf F s
            bl := imageBl F s
            tl := BitVec.ofNat Config.ctrBits (imageTl F s) },
          if (imageTail F s 0).toNat = 1 then .active else .finalized)
  else none

end Sys2Proof.Machine
end

