-- ==== Sys2Proof/Machine/ExportImport.lean ====
section
/-! DEFINITION. The commands EXPORT and IMPORT (spec 41 rules R195 and R196). -/

namespace Sys2Proof.Machine

/-- EXPORT (R195): write the canonical image of a DIGEST slot to host memory; the slot is not changed. -/
def execExport (F : Family) (h : Nat) (s : State) : Host.Outcome State Fault Refusal :=
  s.guarded (s.checks (.exportCtx F h)) <|
    .next ((s.storeBytes s.opAddr (image F (s.slot h).dc (s.slot h).phase)).complete 0)

/-- IMPORT (R196): restore a DIGEST slot from an image in host memory; a malformed image raises
InvalidArguments, after ChkAdmit (R272 check 6). -/
def execImport (F : Family) (h : Nat) (s : State) : Host.Outcome State Fault Refusal :=
  s.guarded (s.checks (.importCtx F h)) <|
    match parse F (s.operandBytes F.imageSize) with
    | none => .next (s.raise .invalidArguments)
    | some (dc, ph) => .next ((s.setSlot h { s.slot h with dc := dc, phase := ph }).complete 0)

end Sys2Proof.Machine
end

