-- ==== Sys2Proof/Machine/Hmac.lean ====
section
/-! DEFINITION. The HMAC controller (spec 42 rules R220 to R228): key derivation and the commands HMAC_INIT, HMAC_UPDATE,
HMAC_FINALIZE and HMAC_CLEANUP. The key buffer, the derived keys and the inner digest exist only inside one
step and are no state (10 rule R54; log entry 9). -/

namespace Sys2Proof.Machine

/-- The reduced key K0 (R220): hashed when longer than one block, as is otherwise. -/
def reduceKey (P : Prims) (F : Family) (K : List Byte) : List Byte :=
  if F.block < K.length then digest P F K else K

/-- KP, the reduced key zero-padded to BLOCK bytes (R222). -/
def padKey (P : Prims) (F : Family) (K : List Byte) : List Byte :=
  reduceKey P F K ++ zeros (F.block - (reduceKey P F K).length)

/-- IK, the inner key: KP XOR ipad 0x36 (R221, R222). -/
def innerKey (P : Prims) (F : Family) (K : List Byte) : List Byte := xorAll 0x36 (padKey P F K)

/-- OK, the outer key: KP XOR opad 0x5C (R221, R222). -/
def outerKey (P : Prims) (F : Family) (K : List Byte) : List Byte := xorAll 0x5C (padKey P F K)

/-- HMAC_INIT (R225): allocate an HMAC slot and load it with a key. -/
def execHmacInit (F : Family) (s : State) : Host.Outcome State Fault Refusal :=
  s.guarded (s.checks (.hmacInit F)) <|
    let K := s.operandBytes s.opLen
    match s.freeSlot with
    | none => .next (s.raise .outOfMemory)
    | some h =>
      .next ((s.setSlot h
        { kind := .hmac, fam := F, phase := .active
          dc := absorb s.prims F (initDC s.prims F) (innerKey s.prims F K)
          oc := absorb s.prims F (initDC s.prims F) (outerKey s.prims F K) }).complete
            (BitVec.ofNat 32 h))

/-- HMAC_UPDATE (R226): absorb message bytes into the inner context only. -/
def execHmacUpdate (F : Family) (h : Nat) (s : State) : Host.Outcome State Fault Refusal :=
  s.guarded (s.checks (.hmacUpdate F h)) <|
    .next ((s.setSlot h
      { s.slot h with dc := absorb s.prims F (s.slot h).dc (s.operandBytes s.opLen) }).complete 0)

/-- HMAC_FINALIZE (R227): finish the inner hash, feed its digest to the outer context, finish the outer hash
and write the MAC. -/
def execHmacFinalize (F : Family) (h : Nat) (s : State) : Host.Outcome State Fault Refusal :=
  s.guarded (s.checks (.hmacFinalize F h)) <|
    let ist := finishState s.prims F (s.slot h).dc
    let oc1 := absorb s.prims F (s.slot h).oc (ser F ist)
    let ost := finishState s.prims F oc1
    .next (((s.storeBytes s.opAddr (ser F ost)).setSlot h
      { s.slot h with
        dc := finalDC F (s.slot h).dc ist
        oc := finalDC F oc1 ost
        phase := .finalized }).complete 0)

/-- HMAC_CLEANUP (R228): zero and release an HMAC slot, in one commit (R254). -/
def execHmacCleanup (h : Nat) (s : State) : Host.Outcome State Fault Refusal :=
  s.guarded (s.checks (.hmacCleanup h)) <| .next ((s.setSlot h Slot.free).complete 0)

end Sys2Proof.Machine
end

