-- ==== Sys2Proof/Machine/Lifecycle.lean ====
section
/-! DEFINITION. The context lifecycle commands CTXSIZE, ALLOC and CLEANUP (spec 43 rules R250, R251, R253, R254). -/

namespace Sys2Proof.Machine

/-- CTXSIZE (R250): RDATA = IMAGE_SIZE(F); always Ok. -/
def execCtxsize (F : Family) (s : State) : Host.Outcome State Fault Refusal :=
  s.guarded (s.checks (.ctxsize F)) <| .next (s.complete (BitVec.ofNat 32 F.imageSize))

/-- ALLOC (R251): claim the lowest free slot as an UNINIT DIGEST context of family F. -/
def execAlloc (F : Family) (s : State) : Host.Outcome State Fault Refusal :=
  s.guarded (s.checks (.alloc F)) <|
    match s.freeSlot with
    | none => .next (s.raise .outOfMemory)
    | some h =>
      .next ((s.setSlot h
        { kind := .digest, fam := F, phase := .uninit, dc := .zero F, oc := .zero F }).complete
          (BitVec.ofNat 32 h))

/-- CLEANUP (R253): zero and release a DIGEST slot, in one commit (R254). -/
def execCleanup (h : Nat) (s : State) : Host.Outcome State Fault Refusal :=
  s.guarded (s.checks (.cleanup h)) <| .next ((s.setSlot h Slot.free).complete 0)

end Sys2Proof.Machine
end

