-- ==== Sys2Proof/Machine/Dispatch.lean ====
section
/-! DEFINITION. One arm per command: the meaning of each row of spec/opcode_table.json. -/

namespace Sys2Proof.Machine

def exec (i : Instr) (s : State) : Host.Outcome State Fault Refusal :=
  match i with
  | .ctxsize F => Sys2Proof.Machine.execCtxsize F s
  | .alloc F => Sys2Proof.Machine.execAlloc F s
  | .init F h => Sys2Proof.Machine.execInit F h s
  | .update F h => Sys2Proof.Machine.execUpdate F h s
  | .finalize F h => Sys2Proof.Machine.execFinalize F h s
  | .exportCtx F h => Sys2Proof.Machine.execExport F h s
  | .importCtx F h => Sys2Proof.Machine.execImport F h s
  | .cleanup h => Sys2Proof.Machine.execCleanup h s
  | .hmacInit F => Sys2Proof.Machine.execHmacInit F s
  | .hmacUpdate F h => Sys2Proof.Machine.execHmacUpdate F h s
  | .hmacFinalize F h => Sys2Proof.Machine.execHmacFinalize F h s
  | .hmacCleanup h => Sys2Proof.Machine.execHmacCleanup h s

end Sys2Proof.Machine
end

