-- ==== Sys2Proof/Machine/Agents.lean ====
section
/-! DEFINITION. What each agent does on its turn (spec 00 rule R17): the engine's one step (10 rules R50, R53), a host agent's
statement (30 rules R121, R122), and a platform reset (70 rules R300, R301). -/

namespace Sys2Proof.Machine

/-! ### The engine -/

/-- Give each address of `as` a fresh free byte: a host's racing write landed there, and what stands there once
the command is done is not fixed (R307; log entry 7). -/
def State.havoc (s : State) : List Nat → State
  | [] => s
  | a :: as =>
    State.havoc
      { s with mem := Memory.put s.mem a (Config.freeByte s.freeCount), freeCount := s.freeCount + 1 } as

/-- After a command has run: settle the bytes that were raced for. Nothing when no host broke R307. -/
def State.settleRaces (s : State) : State := { s.havoc s.raced with raced := [] }

/-- Execute the pending word (R50): an illegal word raises IllegalCommand (R273). -/
def State.runPending (s : State) : Host.Outcome State Fault Refusal :=
  match decode s.lcmd with
  | .ok i => exec i s
  | .error _ => .next (s.raise .illegalCommand)

/-- The engine's turn (R53): with PEND = 1, execute LCMD; with PEND = 0 it has no step and all state is
kept (R289). -/
def State.engineTurn (s : State) : Host.Outcome State Fault Refusal :=
  if s.pend then mapNext State.settleRaces s.runPending else .next s

/-! ### Host agents -/

/-- Host agent `k` becomes `h`. -/
def State.setHost (s : State) (k : Nat) (h : HostAgent) : State := { s with hosts := s.hosts.set k h }

/-- Add a fault to the run's fault set; none is ever removed (R290). -/
def State.addFault (s : State) (f : Fault) : State :=
  if f ∈ s.faults then s else { s with faults := f :: s.faults }

/-- Whether physical address `a` lies in the register window, 256 bytes at BASE (R32, R93). -/
def State.inWindow (s : State) (a : Nat) : Bool :=
  decide (s.plat.base ≤ a) && decide (a < s.plat.base + Config.windowSize)

/-- A host's read of one byte of host memory, and the state after. A read in the pending command's DMA range
adds HazardDmaRange, and the value read is any value (R307). -/
def State.hostLoad (s : State) (a : Nat) : Byte × State :=
  if s.inDmaRange a then
    (Config.freeByte s.freeCount,
      { s.addFault .hazardDmaRange with freeCount := s.freeCount + 1 })
  else (Memory.read s.mem a, s)

/-- A host's write of one byte of host memory. A write in the pending command's DMA range adds HazardDmaRange,
and neither what the command sees nor what stands there afterwards is fixed (R307; log entry 7). -/
def State.hostStore (s : State) (a : Nat) (b : Byte) : State :=
  if s.inDmaRange a then
    { s.addFault .hazardDmaRange with
      mem := Memory.put s.mem a (Config.freeByte s.freeCount)
      freeCount := s.freeCount + 1
      raced := a :: s.raced }
  else { s with mem := Memory.put s.mem a b }

/-- A physical byte access at `a`: refused inside the window, which only 32-bit accesses reach (R55, R291);
`noSuchAddress` outside both address spaces (R80); else `k`. -/
def State.onMemory (s : State) (a : Nat)
    (k : Host.Outcome State Fault Refusal) : Host.Outcome State Fault Refusal :=
  if s.inWindow a then .refused .windowAccess
  else if Config.memSize ≤ a then .fault .noSuchAddress
  else k

/-- Host agent `k`, being `h`, runs the statement `st`; `rest` is its program after it (R121, R122). -/
def State.runStmt (s : State) (k : Nat) (h : HostAgent) (rest : List HostStmt) :
    HostStmt → Host.Outcome State Fault Refusal
  | .winRead off width =>
    if alignedWindowAccess off width then
      .next (s.setHost k { h with prog := rest, got := s.readWindow off })
    else .refused .windowAccess
  | .winWrite off width v =>
    if alignedWindowAccess off width then
      .next ((s.writeWindow off v).setHost k { h with prog := rest })
    else .refused .windowAccess
  | .load a =>
    s.onMemory a <|
      .next ((s.hostLoad a).2.setHost k { h with prog := rest, got := (s.hostLoad a).1.setWidth 32 })
  | .store a b => s.onMemory a <| .next ((s.hostStore a b).setHost k { h with prog := rest })
  | .wait =>
    .next (s.setHost k
      { h with prog := if s.statusWord.getLsbD 0 then .wait :: rest else rest, got := s.statusWord })
  | .expect r =>
    if (s.statusWord.extractLsb' 4 4).toNat = r then
      .next (s.setHost k { h with prog := rest, got := s.statusWord })
    else .fault .expectFailed
  | .readHandle => .next (s.setHost k { h with prog := rest, got := s.rdata, handle := s.rdata.toNat })
  | .cmdKept i =>
    .next ((s.writeCmd (encode (i.withHandle h.handle))).setHost k { h with prog := rest })

/-- Host agent `k`'s turn: its next statement; nothing when it has none left. -/
def State.hostTurn (s : State) (k : Nat) : Host.Outcome State Fault Refusal :=
  match s.hosts[k]? with
  | none => .next s
  | some h =>
    match h.prog with
    | [] => .next s
    | st :: rest => s.runStmt k h rest st

/-- The first host agent with a statement left. -/
def State.readyHost (s : State) : Option Nat := s.hosts.findIdx? fun h => !h.prog.isEmpty

/-! ### Reset -/

/-- The engine in its reset state (R300). Host memory, the platform, the host agents and the run's own
records are not the engine's and stay (log entry 16). -/
def State.resetEngine (s : State) : State :=
  { State.reset with
    mem := s.mem
    faults := s.faults
    plat := s.plat
    hosts := s.hosts
    schedule := s.schedule
    freeCount := s.freeCount }

/-- The write range of a pending command whose every check would pass: where it starts and how many bytes
it has (R301). -/
def State.pendingStore (s : State) : Option (Nat × Nat) :=
  if s.pend then
    match decode s.lcmd with
    | .ok i =>
      if transferDir i = some .write ∧ firstFailure (s.checks i) = none then
        some (s.opAddr, transferWidth i s.opLen)
      else none
    | .error _ => none
  else none

/-- A platform reset (R300, R301): a pending command is abandoned, and each byte of the write range it would
have stored to may hold any value. -/
def State.resetTurn (s : State) : State :=
  match s.pendingStore with
  | none => s.resetEngine
  | some (a, n) =>
    State.resetEngine
      { s with
        mem := Memory.writeRange s.mem a (freeBytes s.freeCount n)
        freeCount := s.freeCount + n }

end Sys2Proof.Machine
end

