-- ==== Sys2Proof/Machine/Step.lean ====
section
/-! DEFINITION. One step of the machine: the scheduled agent's turn (spec 00 rule R17, 10 rule R53; log entry 5), and how
a command word is placed so that the next step runs it (log entry 6). -/

namespace Sys2Proof.Machine

/-- One step. The schedule says whose turn it is; when it is used up, a pending command runs, else the first
host agent with a statement left moves, else nothing happens. -/
def step (s : State) : Host.Outcome State Fault Refusal :=
  match s.schedule with
  | .engine :: rest => State.engineTurn { s with schedule := rest }
  | .host k :: rest => State.hostTurn { s with schedule := rest } k
  | .reset :: rest => .next (State.resetTurn { s with schedule := rest })
  | [] =>
    if s.pend then s.engineTurn
    else
      match s.readyHost with
      | some k => s.hostTurn k
      | none => .next s

/-- `s` with the command word `w` accepted (R51: CMD_LAST, LCMD, LADDR, LLEN and PEND as a CMD write of it on an
idle engine leaves them) and the engine's turn next: the engine fetches nothing, so this is where a
command comes from (R31, R100). -/
def State.withFetchWord (s : State) (nbits w : Nat) : State :=
  { s.accept (BitVec.ofNat 32 (w % 2 ^ nbits)) with raced := [], schedule := .engine :: s.schedule }

end Sys2Proof.Machine
end

