-- ==== Sys2Proof/Safety.lean ====
section
/-! DEFINITION. The invariants of the slot bank and of memory (spec 10 rules R41, R45 to R47), and what counts as a run a claim may
be made about (60 rules R290, R291, 70 rule R315). -/

namespace Sys2Proof.Machine

/-- A chaining value stored in the 512-bit shape: the unused high half of a 256-bit word is zero (R41). -/
def wordsFit (F : Family) (x : Words 64) : Prop := ∀ w ∈ x.toList, w.toNat < 2 ^ F.wordBits

/-- The invariants of a DigestContext of family `F` between commands: word widths (R41), BLOCK buffer bytes
(R40), `bl < BLOCK` (R45), and zero bytes past `bl` (R46). -/
structure DigestCtx.Inv (F : Family) (dc : DigestCtx) : Prop where
  width : wordsFit F dc.state
  bufLen : dc.buf.length = F.block
  blLt : dc.bl < F.block
  tailZero : ∀ b ∈ dc.buf.drop dc.bl, b = 0

/-- The slot invariants of R47, (a) to (f), with those of both contexts. -/
structure Slot.Inv (x : Slot) : Prop where
  inner : x.dc.Inv x.fam
  outer : x.oc.Inv x.fam
  freeValue : x.kind = .none → x = Slot.free
  digestOuter : x.kind = .digest → x.oc = .zero x.fam
  uninitZero : x.phase = .uninit → x.kind = .none ∨ (x.kind = .digest ∧ x.dc = .zero x.fam)
  activeBl : x.phase = .active → x.dc.bl = x.dc.tl.toNat % x.fam.block
  activeOuterBl : x.phase = .active → x.kind = .hmac → x.oc.bl = x.oc.tl.toNat % x.fam.block
  finalInner : x.phase = .finalized → x.dc.bl = 0 ∧ x.dc.buf = zeros x.fam.block
  finalOuter : x.phase = .finalized → x.kind = .hmac → x.oc.bl = 0 ∧ x.oc.buf = zeros x.fam.block
  hmacPhase : x.kind = .hmac → x.phase = .active ∨ x.phase = .finalized

/-- The machine's invariant: every slot is well formed (R45 to R47), memory is canonical and lies in host
memory's 2^32 addresses (R80), and every recorded race is in the pending command's DMA range (R307), so that
none is recorded while no command, or an illegal word, is pending. -/
structure State.Inv (s : State) : Prop where
  slots : ∀ x ∈ s.slots.toList, Slot.Inv x
  memWf : Memory.wf s.mem
  memBound : ∀ c ∈ s.mem, c.1 < Config.memSize
  racedRange : ∀ a ∈ s.raced, s.inDmaRange a = true

/-- A state a claim may be made about: the run's fault set is empty (R290). -/
def State.clean (s : State) : Prop := s.faults = []

/-- The run is over: every host program has run its last statement and PEND = 0 (R315). -/
def State.ended (s : State) : Prop := s.pend = false ∧ ∀ h ∈ s.hosts, h.prog = []

/-- `k` steps from `s` give the clean state `t`, with no refusal on the way (R290, R291, R315). -/
def SafeRun (k : Nat) (s t : State) : Prop := Host.Core.run Sys2Proof.core k s = .next t ∧ t.clean

/-! ### Terms the claims use -/

/-- Handle `h` passes ChkCtx and ChkFam for kind `k` and family `F` (R272 checks 1 and 2). -/
def State.names (s : State) (h : Nat) (k : Kind) (F : Family) : Prop :=
  1 ≤ h ∧ h ≤ Config.nctx ∧ (s.slot h).kind = k ∧ (s.slot h).fam = F

/-- The range of `n` bytes at the latched address passes ChkRange and ChkAdmit (R82, R84). -/
def State.mayMove (s : State) (d : Dir) (n : Nat) : Prop :=
  (n = 0 ∨ (s.opAddr ≠ 0 ∧ s.opAddr + n ≤ Config.memSize)) ∧ s.admits d s.opAddr n = true

/-- Handle `h` is the one FreeSlot returns: free, with every lower handle in use (R252). -/
def State.lowestFree (s : State) (h : Nat) : Prop :=
  1 ≤ h ∧ h ≤ Config.nctx ∧ (s.slot h).kind = .none ∧ ∀ g, 1 ≤ g → g < h → (s.slot g).kind ≠ .none

/-- Every slot 1..NCTX is in use (R276). -/
def State.full (s : State) : Prop := ∀ h, 1 ≤ h → h ≤ Config.nctx → (s.slot h).kind ≠ .none

/-- The engine's turn is next: it heads the schedule, or the schedule is used up and a command is pending
(R53; log entry 5). `rest` is the schedule left. -/
def State.engineNext (s : State) (rest : List Turn) : Prop :=
  s.schedule = .engine :: rest ∨ (s.schedule = [] ∧ rest = [] ∧ s.pend = true)

/-- Host agent `k`, being `h`, is next with statement `st`: its turn heads the schedule, or the schedule is used up,
no command is pending and it is the first agent with a statement left (R17; log entry 5). `rest` is its program
after the statement and `turns` the schedule left. -/
def State.hostNext (s : State) (k : Nat) (h : HostAgent) (st : HostStmt) (rest : List HostStmt)
    (turns : List Turn) : Prop :=
  (s.schedule = .host k :: turns ∨
    (s.schedule = [] ∧ turns = [] ∧ s.pend = false ∧ s.readyHost = some k)) ∧
  s.hosts[k]? = some h ∧ h.prog = st :: rest

/-- The one-byte step of R144: buffer the byte, and compress and clear the buffer when it is full. The
counter is left alone. -/
def byteStep (P : Prims) (F : Family) (dc : DigestCtx) (x : Byte) : DigestCtx :=
  let buf := splice dc.buf dc.bl [x]
  if dc.bl + 1 = F.block then
    { dc with state := compress P F dc.state buf, buf := zeros F.block, bl := 0 }
  else { dc with buf := buf, bl := dc.bl + 1 }

/-- The standard padded form of a message shorter than 2^CTR_BITS bytes: the marker 0x80, zero bytes up to
the last LENLEN bytes of a block, and the bit count (R146, R147). -/
def padded (F : Family) (m : List Byte) : List Byte :=
  m ++ [0x80#8] ++ zeros ((F.block - (m.length + 1 + F.lenLen) % F.block) % F.block)
    ++ lenField F (BitVec.ofNat Config.ctrBits m.length)

end Sys2Proof.Machine
end

