-- ==== Sys2Proof/Certificates/Slice0/Obligations.lean ====
section
/-! DEFINITION. The statements for the provers, one `def Obligations.<Name> : Prop` each, from the numbered rules of spec/. -/

open Sys2Proof Sys2Proof.Machine

/-! ### The encoding -/

/-- Words of spec 95 section 2.1, one of each command, decode to the commands they stand for (R111, R119). -/
def Obligations.ListedWordsDecode : Prop :=
  decode 0x00000101#32 = .ok (.ctxsize .f512) ∧ decode 0x00000102#32 = .ok (.alloc .f512) ∧
  decode 0x00010103#32 = .ok (.init .f512 1) ∧ decode 0x00020104#32 = .ok (.update .f512 2) ∧
  decode 0x00010005#32 = .ok (.finalize .f256 1) ∧ decode 0x00010106#32 = .ok (.exportCtx .f512 1) ∧
  decode 0x00020107#32 = .ok (.importCtx .f512 2) ∧ decode 0x00030108#32 = .ok (.cleanup 3) ∧
  decode 0x00070009#32 = .ok (.hmacInit .f256) ∧ decode 0x0001000A#32 = .ok (.hmacUpdate .f256 1) ∧
  decode 0x0001010B#32 = .ok (.hmacFinalize .f512 1) ∧ decode 0x0001000C#32 = .ok (.hmacCleanup 1)

/-- Decoding the word of any well-formed command gives the command back (R110, R119, R120). -/
def Obligations.DecodeOfEncode : Prop :=
  ∀ i : Instr, i.WellFormed → decode (encode i) = .ok i

/-- The word a command was decoded from is the command's own word but for the fields the command ignores:
the word's opcode bits, with bit 8 where FAMILY is used and bits 23:16 where CTX is used (R112, R113). -/
def Obligations.EncodeOfDecode : Prop :=
  ∀ (v : Word) (i : Instr), decode v = .ok i → i.WellFormed ∧
    encode i = v &&& (0xFF#32 ||| (if i.family?.isSome then 0x100#32 else 0#32)
      ||| (if i.handle?.isSome then 0xFF0000#32 else 0#32))

/-- R116: which words are illegal; an illegal word raises IllegalCommand and has no other effect, so it stays
readable in CMD_LAST (R273); and the mask test of each opcode. The premise on `raced` is part of the invariant
`StepKeepsInvariant` states: an illegal word has no DMA range, so no host raced for it. -/
def Obligations.IllegalWordsExactly : Prop :=
  (∀ v : Word, (∃ e, decode v = .error e) ↔
    (v.extractLsb' 9 7 ≠ 0#7 ∨ v.extractLsb' 24 8 ≠ 0#8) ∨
    ((v.extractLsb' 0 8).toNat = 0x00 ∨ 0x0D ≤ (v.extractLsb' 0 8).toNat)) ∧
  (∀ (s : State) (rest : List Turn) (e : Illegal),
    s.engineNext rest → s.pend = true → (∀ a ∈ s.raced, s.inDmaRange a = true) → decode s.lcmd = .error e →
      step s = .next { s with schedule := rest, result := .illegalCommand, rdata := 0, pend := false }) ∧
  (∀ (v : Word) (op : Nat), 0x01 ≤ op → op ≤ 0x0C →
    ((∃ i, decode v = .ok i ∧ i.opcode = op) ↔ v &&& 0xFF00FEFF#32 = BitVec.ofNat 32 op))

/-! ### The step -/

/-- The engine's turn on a pending legal word is `exec` of the decoded command (R50, R53); afterwards the
bytes a host raced for are settled, which changes nothing when no host broke R307 (log entry 7). -/
def Obligations.StepRunsDecodedCommand : Prop :=
  ∀ (s : State) (rest : List Turn) (i : Instr),
    s.engineNext rest → s.pend = true → decode s.lcmd = .ok i →
      step s = mapNext State.settleRaces (exec i { s with schedule := rest }) ∧
      (s.raced = [] → step s = exec i { s with schedule := rest })

/-- With PEND = 0 the engine has no step: its turn passes and everything else is kept (R53, R289). -/
def Obligations.IdleEngineKeepsEverything : Prop :=
  ∀ (s : State) (rest : List Turn), s.schedule = .engine :: rest → s.pend = false →
    step s = .next { s with schedule := rest }

/-! ### What holds of every command -/

/-- Every command ends in a next state with BUSY cleared, whatever the state and the operands (R50, R312). -/
def Obligations.EveryCommandCompletes : Prop :=
  ∀ (i : Instr) (s : State), ∃ t, exec i s = .next t ∧ t.pend = false

/-- R270: a command that ends with a result other than Ok commits only RESULT, RDATA = 0 and PEND = 0. -/
def Obligations.FailedCommandChangesNothing : Prop :=
  ∀ (i : Instr) (s t : State), exec i s = .next t → t.result ≠ .ok →
    t = { s with result := t.result, rdata := 0, pend := false }

/-- No command changes CMD_LAST, ADDR, LEN, DROPPED, the latched word and arguments, the platform, the host
agents, the schedule, the fault set or the model's own records; it writes RESULT, RDATA and PEND, slots and
host memory only (R50, R56). -/
def Obligations.CommandRegisterFrame : Prop :=
  ∀ (i : Instr) (s t : State), exec i s = .next t →
    t.cmdLast = s.cmdLast ∧ t.addr = s.addr ∧ t.len = s.len ∧ t.dropped = s.dropped ∧
    t.lcmd = s.lcmd ∧ t.laddr = s.laddr ∧ t.llen = s.llen ∧ t.plat = s.plat ∧ t.hosts = s.hosts ∧
    t.schedule = s.schedule ∧ t.faults = s.faults ∧ t.raced = s.raced ∧ t.freeCount = s.freeCount

/-- CTXSIZE, ALLOC, INIT, UPDATE, IMPORT, CLEANUP, HMAC_INIT, HMAC_UPDATE and HMAC_CLEANUP store nothing:
every byte of host memory reads as before (R90). -/
def Obligations.NonStoringMemoryFrame : Prop :=
  ∀ (i : Instr) (s t : State),
    (∀ F h, i ≠ .finalize F h ∧ i ≠ .exportCtx F h ∧ i ≠ .hmacFinalize F h) →
    exec i s = .next t → ∀ x, Memory.read t.mem x = Memory.read s.mem x

/-- FINALIZE, HMAC_FINALIZE and EXPORT store only in the DIGLEN or IMAGE_SIZE bytes from the latched address
on: every other byte of host memory reads as before (R82, R90). For EXPORT the premise that the buffer holds BLOCK
bytes is part of the invariant `StepKeepsInvariant` states. -/
def Obligations.StoringMemoryFrame : Prop :=
  ∀ (F : Family) (h : Nat) (s t : State) (a n : Nat), a = s.opAddr →
    (exec (.finalize F h) s = .next t ∧ n = F.digLen) ∨
    (exec (.hmacFinalize F h) s = .next t ∧ n = F.digLen) ∨
    (exec (.exportCtx F h) s = .next t ∧ n = F.imageSize ∧ (s.slot h).dc.buf.length = F.block) →
    ∀ x, x < a ∨ a + n ≤ x → Memory.read t.mem x = Memory.read s.mem x

/-- A command changes no slot but the one it names; ALLOC and HMAC_INIT change only the one whose handle they
return; CTXSIZE and EXPORT change none (R102). -/
def Obligations.OtherSlotsUnchanged : Prop :=
  ∀ (i : Instr) (s t : State), exec i s = .next t → ∀ g,
    (i.handle? = some g → ∃ F, i = .exportCtx F g) →
    (∀ F, i = .alloc F ∨ i = .hmacInit F → t.rdata.toNat ≠ g) →
    t.slot g = s.slot g

/-! ### Which check a command fails (R272) -/

/-- A null handle, a handle above NCTX, and a free slot or one of the other kind raise InvalidArguments in
every command with a context operand, before any other check (R113, R272 check 1, R274 a to c). -/
def Obligations.BadHandleRaisesInvalidArguments : Prop :=
  ∀ (F : Family) (h : Nat) (s : State),
    (∀ i ∈ [Instr.init F h, .update F h, .finalize F h, .exportCtx F h, .importCtx F h, .cleanup h],
      h = 0 ∨ Config.nctx < h ∨ (s.slot h).kind ≠ .digest →
        exec i s = .next { s with result := .invalidArguments, rdata := 0, pend := false }) ∧
    (∀ i ∈ [Instr.hmacUpdate F h, .hmacFinalize F h, .hmacCleanup h],
      h = 0 ∨ Config.nctx < h ∨ (s.slot h).kind ≠ .hmac →
        exec i s = .next { s with result := .invalidArguments, rdata := 0, pend := false })

/-- A FAMILY that differs from the slot's raises InvalidArguments (R112); CLEANUP and HMAC_CLEANUP have no
family to check and act on a slot of either (R112, R114). -/
def Obligations.WrongFamilyRaisesInvalidArguments : Prop :=
  ∀ (F G : Family) (h : Nat) (s : State), F ≠ G →
    (s.names h .digest G → ∀ i ∈ [Instr.init F h, .update F h, .finalize F h, .exportCtx F h, .importCtx F h],
        exec i s = .next { s with result := .invalidArguments, rdata := 0, pend := false }) ∧
    (s.names h .hmac G → ∀ i ∈ [Instr.hmacUpdate F h, .hmacFinalize F h],
        exec i s = .next { s with result := .invalidArguments, rdata := 0, pend := false })

/-- R275: what raises InvalidState, whatever the range operands are (R272 check 3 comes before 4 and 5). -/
def Obligations.WrongPhaseRaisesInvalidState : Prop :=
  ∀ (F : Family) (h : Nat) (s : State),
    (s.names h .digest F → (s.slot h).phase ≠ .active → ∀ i ∈ [Instr.update F h, .finalize F h],
        exec i s = .next { s with result := .invalidState, rdata := 0, pend := false }) ∧
    (s.names h .digest F → (s.slot h).phase = .uninit →
        exec (.exportCtx F h) s = .next { s with result := .invalidState, rdata := 0, pend := false }) ∧
    (s.names h .hmac F → (s.slot h).phase ≠ .active → ∀ i ∈ [Instr.hmacUpdate F h, .hmacFinalize F h],
        exec i s = .next { s with result := .invalidState, rdata := 0, pend := false })

/-- A range of n > 0 bytes at address 0, or one that passes 2^32, raises InvalidArguments in every command that
moves bytes, once the checks before it pass; MemAdmit is not asked (R82, R83, R272 check 4). -/
def Obligations.IllegalRangeRaisesInvalidArguments : Prop :=
  ∀ (F : Family) (h : Nat) (s : State) (i : Instr),
    ((i = .update F h ∨ i = .finalize F h) ∧ s.names h .digest F ∧ (s.slot h).phase = .active) ∨
    (i = .exportCtx F h ∧ s.names h .digest F ∧ (s.slot h).phase ≠ .uninit) ∨
    (i = .importCtx F h ∧ s.names h .digest F) ∨ i = .hmacInit F ∨
    ((i = .hmacUpdate F h ∨ i = .hmacFinalize F h) ∧ s.names h .hmac F ∧ (s.slot h).phase = .active) →
    0 < transferWidth i s.opLen →
    s.opAddr = 0 ∨ 2 ^ 32 < s.opAddr + transferWidth i s.opLen →
    exec i s = .next { s with result := .invalidArguments, rdata := 0, pend := false }

/-- R277: BusError when MemAdmit is false for the command's whole range, in the command's direction, the
checks before it having passed. -/
def Obligations.NotAdmittedRaisesBusError : Prop :=
  ∀ (F : Family) (h : Nat) (s : State) (i : Instr) (d : Dir),
    (i = .update F h ∧ d = .read ∧ s.names h .digest F ∧ (s.slot h).phase = .active) ∨
    (i = .finalize F h ∧ d = .write ∧ s.names h .digest F ∧ (s.slot h).phase = .active) ∨
    (i = .exportCtx F h ∧ d = .write ∧ s.names h .digest F ∧ (s.slot h).phase ≠ .uninit) ∨
    (i = .importCtx F h ∧ d = .read ∧ s.names h .digest F) ∨ (i = .hmacInit F ∧ d = .read) ∨
    (i = .hmacUpdate F h ∧ d = .read ∧ s.names h .hmac F ∧ (s.slot h).phase = .active) ∨
    (i = .hmacFinalize F h ∧ d = .write ∧ s.names h .hmac F ∧ (s.slot h).phase = .active) →
    s.opAddr ≠ 0 → s.opAddr + transferWidth i s.opLen ≤ 2 ^ 32 →
    s.admits d s.opAddr (transferWidth i s.opLen) = false →
    exec i s = .next { s with result := .busError, rdata := 0, pend := false }

/-- R276: ALLOC, and HMAC_INIT with a key it may read, raise OutOfMemory when every slot is in use. -/
def Obligations.NoFreeSlotRaisesOutOfMemory : Prop :=
  ∀ (F : Family) (s : State), s.full →
    exec (.alloc F) s = .next { s with result := .outOfMemory, rdata := 0, pend := false } ∧
    (s.mayMove .read s.opLen →
      exec (.hmacInit F) s = .next { s with result := .outOfMemory, rdata := 0, pend := false })

/-! ### What each command does when its checks pass -/

/-- CTXSIZE always ends with Ok and RDATA = 116 or 212, changing no slot and no memory (R250). -/
def Obligations.CtxsizeReturnsImageSize : Prop :=
  ∀ s : State,
    exec (.ctxsize .f256) s = .next { s with result := .ok, rdata := 116, pend := false } ∧
    exec (.ctxsize .f512) s = .next { s with result := .ok, rdata := 212, pend := false }

/-- ALLOC claims the lowest free slot as an UNINIT, all-zero DIGEST slot of the family and returns its handle
(R251, R252). -/
def Obligations.AllocClaimsLowestFreeSlot : Prop :=
  ∀ (F : Family) (h : Nat) (s : State), s.lowestFree h →
    ∃ t, exec (.alloc F) s = .next t ∧ t.result = .ok ∧ t.rdata = BitVec.ofNat 32 h ∧ t.pend = false ∧
      t.slot h = { kind := .digest, fam := F, phase := .uninit, dc := .zero F, oc := .zero F }

/-- INIT, in every phase, leaves the slot ACTIVE with the initial chaining value, an empty zero buffer and zero
counters (R141, R155). -/
def Obligations.InitEstablishesInitialContext : Prop :=
  ∀ (F : Family) (h : Nat) (s : State), s.names h .digest F →
    ∃ t, exec (.init F h) s = .next t ∧ t.result = .ok ∧ t.rdata = 0 ∧ t.pend = false ∧
      t.slot h = { kind := .digest, fam := F, phase := .active
                   dc := { state := iv s.prims F, buf := zeros F.block, bl := 0, tl := 0 }
                   oc := .zero F }

/-- UPDATE absorbs the LEN bytes at the latched address into the slot's context and changes nothing else of
the slot (R142, R156). -/
def Obligations.UpdateAbsorbsMessageBytes : Prop :=
  ∀ (F : Family) (h : Nat) (s : State), s.names h .digest F → (s.slot h).phase = .active →
    s.mayMove .read s.opLen →
    ∃ t, exec (.update F h) s = .next t ∧ t.result = .ok ∧ t.rdata = 0 ∧ t.pend = false ∧
      t.slot h = { s.slot h with
        dc := absorb s.prims F (s.slot h).dc (Memory.readRange s.mem s.opAddr s.opLen) }

/-- FINALIZE writes the DIGLEN digest bytes of the padded context at the latched address and leaves the slot
FINALIZED with the final chaining value, a zero buffer and the old count (R149, R150, R151, R157). -/
def Obligations.FinalizeWritesDigest : Prop :=
  ∀ (F : Family) (h : Nat) (s : State), s.names h .digest F → (s.slot h).phase = .active →
    s.mayMove .write F.digLen →
    ∃ t, exec (.finalize F h) s = .next t ∧ t.result = .ok ∧ t.rdata = 0 ∧ t.pend = false ∧
      Memory.readRange t.mem s.opAddr F.digLen = ser F (finishState s.prims F (s.slot h).dc) ∧
      t.slot h = { s.slot h with
        phase := .finalized
        dc := { state := finishState s.prims F (s.slot h).dc, buf := zeros F.block, bl := 0
                tl := (s.slot h).dc.tl } }

/-- EXPORT writes the slot's image at the latched address and changes no slot (R190, R195). The premise that
the buffer holds BLOCK bytes is part of the invariant `StepKeepsInvariant` states. -/
def Obligations.ExportWritesImage : Prop :=
  ∀ (F : Family) (h : Nat) (s : State), s.names h .digest F → (s.slot h).phase ≠ .uninit →
    (s.slot h).dc.buf.length = F.block → s.mayMove .write F.imageSize →
    ∃ t, exec (.exportCtx F h) s = .next t ∧ t.result = .ok ∧ t.rdata = 0 ∧ t.pend = false ∧
      Memory.readRange t.mem s.opAddr F.imageSize = image F (s.slot h).dc (s.slot h).phase ∧
      t.slots = s.slots

/-- IMPORT, in every phase of the slot, replaces its context and phase by the parsed image; a malformed image
raises InvalidArguments and changes nothing else (R192, R196, R272 check 6). -/
def Obligations.ImportRestoresParsedImage : Prop :=
  ∀ (F : Family) (h : Nat) (s : State), s.names h .digest F → s.mayMove .read F.imageSize →
    (∀ (dc : DigestCtx) (ph : Phase),
      parse F (Memory.readRange s.mem s.opAddr F.imageSize) = some (dc, ph) →
      ∃ t, exec (.importCtx F h) s = .next t ∧ t.result = .ok ∧ t.rdata = 0 ∧ t.pend = false ∧
        t.slot h = { s.slot h with dc := dc, phase := ph }) ∧
    (parse F (Memory.readRange s.mem s.opAddr F.imageSize) = none →
      exec (.importCtx F h) s = .next { s with result := .invalidArguments, rdata := 0, pend := false })

/-- CLEANUP and HMAC_CLEANUP, in every phase and family, leave the slot at its free value, every register of it
zero (R228, R253, R254). -/
def Obligations.CleanupZeroesSlot : Prop :=
  ∀ (h : Nat) (s : State), 1 ≤ h → h ≤ 4 →
    ((s.slot h).kind = .digest → ∃ t, exec (.cleanup h) s = .next t ∧ t.result = .ok ∧ t.rdata = 0 ∧
      t.pend = false ∧ t.slot h = Slot.free) ∧
    ((s.slot h).kind = .hmac → ∃ t, exec (.hmacCleanup h) s = .next t ∧ t.result = .ok ∧ t.rdata = 0 ∧
      t.pend = false ∧ t.slot h = Slot.free)

/-- HMAC_INIT claims the lowest free slot as an ACTIVE HMAC slot whose two contexts have absorbed the two
padded keys, one block each: bl = 0, tl = BLOCK, a zero buffer, and the chaining value one compression gives
(R223, R225). -/
def Obligations.HmacInitLoadsKey : Prop :=
  ∀ (F : Family) (h : Nat) (s : State) (K : List Byte), s.lowestFree h → s.mayMove .read s.opLen →
    K = Memory.readRange s.mem s.opAddr s.opLen →
    ∃ t, exec (.hmacInit F) s = .next t ∧ t.result = .ok ∧ t.rdata = BitVec.ofNat 32 h ∧ t.pend = false ∧
      t.slot h = { kind := .hmac, fam := F, phase := .active
                   dc := { state := compress s.prims F (iv s.prims F) (innerKey s.prims F K)
                           buf := zeros F.block, bl := 0, tl := BitVec.ofNat 64 F.block }
                   oc := { state := compress s.prims F (iv s.prims F) (outerKey s.prims F K)
                           buf := zeros F.block, bl := 0, tl := BitVec.ofNat 64 F.block } }

/-- HMAC_UPDATE absorbs the LEN bytes at the latched address into the inner context only (R226). -/
def Obligations.HmacUpdateFeedsInnerContext : Prop :=
  ∀ (F : Family) (h : Nat) (s : State), s.names h .hmac F → (s.slot h).phase = .active →
    s.mayMove .read s.opLen →
    ∃ t, exec (.hmacUpdate F h) s = .next t ∧ t.result = .ok ∧ t.rdata = 0 ∧ t.pend = false ∧
      t.slot h = { s.slot h with
        dc := absorb s.prims F (s.slot h).dc (Memory.readRange s.mem s.opAddr s.opLen) }

/-- HMAC_FINALIZE feeds the inner digest to the outer context, writes the outer digest at the latched address
and leaves both contexts finished (R227). -/
def Obligations.HmacFinalizeWritesMac : Prop :=
  ∀ (F : Family) (h : Nat) (s : State) (ist ost : Words 64) (oc1 : DigestCtx),
    s.names h .hmac F → (s.slot h).phase = .active → s.mayMove .write F.digLen →
    ist = finishState s.prims F (s.slot h).dc → oc1 = absorb s.prims F (s.slot h).oc (ser F ist) →
    ost = finishState s.prims F oc1 →
    ∃ t, exec (.hmacFinalize F h) s = .next t ∧ t.result = .ok ∧ t.rdata = 0 ∧ t.pend = false ∧
      Memory.readRange t.mem s.opAddr F.digLen = ser F ost ∧
      t.slot h = { s.slot h with
        phase := .finalized
        dc := { state := ist, buf := zeros F.block, bl := 0, tl := (s.slot h).dc.tl }
        oc := { state := ost, buf := zeros F.block, bl := 0, tl := oc1.tl } }

/-! ### The streamer, the padding and the length field -/

/-- R144: absorbing in two parts is absorbing the whole, and absorbing is the one-byte step for each byte in
order with the length added to the counter. The premise is the context invariant (R40, R45, R46) that
`StepKeepsInvariant` states of every slot. -/
def Obligations.ChunkingInvariance : Prop :=
  ∀ (P : Prims) (F : Family) (dc : DigestCtx), dc.Inv F →
    (∀ a b : List Byte, absorb P F (absorb P F dc a) b = absorb P F dc (a ++ b)) ∧
    (∀ m : List Byte, absorb P F dc m =
      { m.foldl (byteStep P F) dc with tl := dc.tl + BitVec.ofNat 64 m.length })

/-- R145: Absorb compresses exactly ⌊(bl + len m) / B⌋ blocks, those of the buffered bytes followed by m, and
leaves bl = (bl + len m) mod B. -/
def Obligations.AbsorbCompressesWholeBlocks : Prop :=
  ∀ (P : Prims) (F : Family) (dc : DigestCtx) (m : List Byte), dc.Inv F →
    (absorb P F dc m).state =
      compressBlocks P F ((dc.bl + m.length) / F.block) dc.state (dc.buf.take dc.bl ++ m) ∧
    (absorb P F dc m).bl = (dc.bl + m.length) % F.block

/-- R148: the shift form of the length field, for every counter value. -/
def Obligations.LengthFieldShiftForm : Prop :=
  ∀ (F : Family) (tl : Counter),
    (lenField F tl).length = F.lenLen ∧
    (lenField F tl)[F.lenLen - 1]? = some (BitVec.ofNat 8 (tl.toNat <<< 3)) ∧
    ∀ k, 1 ≤ k → k < F.lenLen →
      (lenField F tl)[F.lenLen - 1 - k]? = some (BitVec.ofNat 8 (tl.toNat >>> (8 * k - 3)))

/-- R154: FinishState compresses one block for bl in 0..55 (0..111) and two for 56..63 (112..127), the blocks of
`finalBlocks` and no more; and hashing a whole message of n bytes compresses ⌊n/B⌋ + 1 blocks, those of the padded
message, if n mod B < B − L and ⌊n/B⌋ + 2 otherwise. The premise of the third clause is the context invariant that
`StepKeepsInvariant` states of every slot. -/
def Obligations.FinalBlockCount : Prop :=
  (∀ dc : DigestCtx, dc.bl < 64 →
    (finalBlocks .f256 dc).length = if dc.bl ≤ 55 then 1 else 2) ∧
  (∀ dc : DigestCtx, dc.bl < 128 →
    (finalBlocks .f512 dc).length = if dc.bl ≤ 111 then 1 else 2) ∧
  (∀ (P : Prims) (F : Family) (dc : DigestCtx), dc.Inv F →
    finishState P F dc =
      compressBlocks P F (finalBlocks F dc).length dc.state (finalBlocks F dc).flatten) ∧
  (∀ (P : Prims) (F : Family) (m : List Byte),
    finishState P F (absorb P F (initDC P F) m) =
      compressBlocks P F
        (if m.length % F.block < F.block - F.lenLen then m.length / F.block + 1 else m.length / F.block + 2)
        (iv P F) (padded F m))

/-- The final blocks are BLOCK bytes each and hold, in order, the buffered bytes, the marker 0x80, zeros and the
length field, as few zeros as fit (R146, R149). -/
def Obligations.FinalBlocksArePadding : Prop :=
  ∀ (F : Family) (dc : DigestCtx), dc.Inv F →
    (∀ b ∈ finalBlocks F dc, b.length = F.block) ∧
    ∃ z, z < F.block ∧
      (finalBlocks F dc).flatten = dc.buf.take dc.bl ++ [0x80#8] ++ zeros z ++ lenField F dc.tl

/-- The digest of a message is the serialised chaining value of the standard Merkle–Damgård padded message,
block by block from the initial value (R18, R146, R149, R153). -/
def Obligations.DigestHashesPaddedMessage : Prop :=
  ∀ (P : Prims) (F : Family) (m : List Byte),
    (padded F m).length % F.block = 0 ∧
    digest P F m =
      ser F (compressBlocks P F ((padded F m).length / F.block) (iv P F) (padded F m))

/-- R153 on the machine: INIT, two UPDATEs and FINALIZE, all Ok, write the one-shot digest of the two messages
one after the other. Between the commands the host may write any ADDR and LEN. -/
def Obligations.InitUpdateFinalizeWritesDigest : Prop :=
  ∀ (F : Family) (h : Nat) (s0 s1 s2 s3 s4 : State) (a1 n1 a2 n2 a3 : Word) (m1 m2 : List Byte),
    exec (.init F h) s0 = .next s1 → s1.result = .ok →
    m1 = Memory.readRange s1.mem a1.toNat n1.toNat →
    exec (.update F h) { s1 with laddr := a1, llen := n1 } = .next s2 → s2.result = .ok →
    m2 = Memory.readRange s2.mem a2.toNat n2.toNat →
    exec (.update F h) { s2 with laddr := a2, llen := n2 } = .next s3 → s3.result = .ok →
    exec (.finalize F h) { s3 with laddr := a3 } = .next s4 → s4.result = .ok →
    Memory.readRange s4.mem a3.toNat F.digLen = digest s0.prims F (m1 ++ m2)

/-! ### The image -/

/-- R190: the image is IMAGE_SIZE(F) bytes, with each field at the offset the table gives. -/
def Obligations.ImageLayout : Prop :=
  ∀ (F : Family) (dc : DigestCtx) (ph : Phase), dc.buf.length = F.block →
    (image F dc ph).length = F.imageSize ∧
    slice (image F dc ph) 0 (8 * F.wordBytes) = ser F dc.state ∧
    slice (image F dc ph) (8 * F.wordBytes) F.block = dc.buf ∧
    slice (image F dc ph) (F.imageSize - 20) 8 = beEnc 8 dc.bl ∧
    slice (image F dc ph) (F.imageSize - 12) 8 = beEnc 8 dc.tl.toNat ∧
    slice (image F dc ph) (F.imageSize - 4) 4 = [BitVec.ofNat 8 ph.code, BitVec.ofNat 8 F.code, 0, 0]

/-- R192: Parse fails exactly when one of V1 to V8 holds, and otherwise returns the fields' values. -/
def Obligations.ParseAcceptsValidImages : Prop :=
  ∀ (F : Family) (s : List Byte) (ph fm r0 r1 : Byte) (bl tl : Nat) (buf : List Byte),
    s.length = F.imageSize → slice s (F.imageSize - 4) 4 = [ph, fm, r0, r1] →
    bl = beDec (slice s (F.imageSize - 20) 8) → tl = beDec (slice s (F.imageSize - 12) 8) →
    buf = slice s (8 * F.wordBytes) F.block →
    (parse F s = none ↔
      (ph ≠ 1 ∧ ph ≠ 2) ∨ fm.toNat ≠ F.code ∨ (r0 ≠ 0 ∨ r1 ≠ 0) ∨ F.block ≤ bl ∨
      (∃ b ∈ buf.drop bl, b ≠ 0) ∨ (ph = 1 ∧ bl ≠ tl % F.block) ∨ (ph = 2 ∧ bl ≠ 0) ∨ 2 ^ 64 ≤ tl) ∧
    ∀ dc p, parse F s = some (dc, p) →
      (∀ i, i < 8 → dc.state.toList[i]? =
        some (BitVec.ofNat 64 (beDec (slice s (i * F.wordBytes) F.wordBytes)))) ∧
      dc.buf = buf ∧ dc.bl = bl ∧ dc.tl.toNat = tl ∧
      p = if ph = 1 then .active else .finalized

/-- R193 on the machine: EXPORT from a slot that meets the invariants, then IMPORT of the same range into a
DIGEST slot of the same family, leaves that slot with the exported slot's context and phase. -/
def Obligations.ExportImportRoundTrip : Prop :=
  (∀ (F : Family) (x : Slot), x.Inv → x.kind = .digest → x.fam = F → x.phase ≠ .uninit →
    parse F (image F x.dc x.phase) = some (x.dc, x.phase)) ∧
  (∀ (F : Family) (h g : Nat) (s t u : State), (s.slot h).Inv → s.names h .digest F →
    exec (.exportCtx F h) s = .next t → t.result = .ok →
    t.names g .digest F → t.mayMove .read F.imageSize →
    exec (.importCtx F g) t = .next u →
    u.result = .ok ∧ (u.slot g).dc = (s.slot h).dc ∧ (u.slot g).phase = (s.slot h).phase)

/-! ### HMAC -/

/-- R220 and R222: a key of at most BLOCK bytes is used as is, a longer one is hashed; the padded key and both
derived keys are BLOCK bytes, and the derived keys differ from it by 0x36 and 0x5C in every byte. -/
def Obligations.KeyDerivation : Prop :=
  ∀ (P : Prims) (F : Family) (K : List Byte),
    (K.length ≤ F.block → padKey P F K = K ++ zeros (F.block - K.length)) ∧
    (F.block < K.length → padKey P F K = digest P F K ++ zeros (F.block - F.digLen)) ∧
    (padKey P F K).length = F.block ∧
    (∀ j, j < F.block → ∃ b, (padKey P F K)[j]? = some b ∧
      (innerKey P F K)[j]? = some (b ^^^ 0x36#8) ∧ (outerKey P F K)[j]? = some (b ^^^ 0x5C#8))

/-- R224 on the machine: HMAC_INIT, two HMAC_UPDATEs and HMAC_FINALIZE, all Ok, write the nested hash of the
key and of the two messages one after the other. Between the commands the host may write any ADDR and LEN. -/
def Obligations.HmacWritesNestedDigest : Prop :=
  ∀ (F : Family) (h : Nat) (s0 s1 s2 s3 s4 : State) (a1 n1 a2 n2 a3 : Word) (K m1 m2 : List Byte),
    K = Memory.readRange s0.mem s0.opAddr s0.opLen →
    exec (.hmacInit F) s0 = .next s1 → s1.result = .ok → h = s1.rdata.toNat →
    m1 = Memory.readRange s1.mem a1.toNat n1.toNat →
    exec (.hmacUpdate F h) { s1 with laddr := a1, llen := n1 } = .next s2 → s2.result = .ok →
    m2 = Memory.readRange s2.mem a2.toNat n2.toNat →
    exec (.hmacUpdate F h) { s2 with laddr := a2, llen := n2 } = .next s3 → s3.result = .ok →
    exec (.hmacFinalize F h) { s3 with laddr := a3 } = .next s4 → s4.result = .ok →
    Memory.readRange s4.mem a3.toNat F.digLen =
      digest s0.prims F (outerKey s0.prims F K ++ digest s0.prims F (innerKey s0.prims F K ++ (m1 ++ m2)))

/-! ### The register window and the host agents -/

/-- What each offset of the window reads as: the constants ID and CAPS, the registers, and 0 at every other
offset (R32 to R39, R55). -/
def Obligations.WindowReadValues : Prop :=
  ∀ s : State,
    s.readWindow 0x00 = 0x53484132#32 ∧ s.readWindow 0x04 = s.cmdLast ∧ s.readWindow 0x08 = s.addr ∧
    s.readWindow 0x0C = s.len ∧ s.readWindow 0x10 = s.statusWord ∧ s.readWindow 0x14 = s.rdata ∧
    s.readWindow 0x18 = 0x00000704#32 ∧ ∀ off, 0x1C ≤ off → s.readWindow off = 0

/-- The fields of STATUS: BUSY in bit 0, DROPPED in bit 1, RESULT in bits 7:4, zero elsewhere (R36, R271). -/
def Obligations.StatusFields : Prop :=
  ∀ s : State,
    s.statusWord.getLsbD 0 = s.pend ∧ s.statusWord.getLsbD 1 = s.dropped ∧
    s.statusWord.extractLsb' 2 2 = 0#2 ∧ s.statusWord.extractLsb' 8 24 = 0#24 ∧
    (s.statusWord.extractLsb' 4 4).toNat =
      match s.result with
      | .ok => 0
      | .invalidArguments => 1
      | .outOfMemory => 2
      | .invalidState => 3
      | .illegalCommand => 4
      | .busError => 5

/-- An aligned 32-bit host read returns the window's value at that offset and changes nothing but the agent
(R55, R92). -/
def Obligations.WindowReadHasNoSideEffect : Prop :=
  ∀ (s : State) (k off : Nat) (h : HostAgent) (rest : List HostStmt) (turns : List Turn),
    s.hostNext k h (.winRead off 4) rest turns → off % 4 = 0 → off < 256 →
    step s = .next { s with
      schedule := turns, hosts := s.hosts.set k { h with prog := rest, got := s.readWindow off } }

/-- R51: a CMD write while PEND = 0 latches the word and the two argument registers, sets PEND and changes no
other state. -/
def Obligations.IdleCmdWriteIsAccepted : Prop :=
  ∀ (s : State) (k : Nat) (h : HostAgent) (v : Word) (rest : List HostStmt) (turns : List Turn),
    s.hostNext k h (.winWrite 0x04 4 v) rest turns → s.pend = false →
    step s = .next { s with
      cmdLast := v, lcmd := v, laddr := s.addr, llen := s.len, pend := true
      schedule := turns, hosts := s.hosts.set k { h with prog := rest } }

/-- R52: a CMD write while PEND = 1 is dropped: it sets DROPPED and changes nothing else. -/
def Obligations.BusyCmdWriteIsDropped : Prop :=
  ∀ (s : State) (k : Nat) (h : HostAgent) (v : Word) (rest : List HostStmt) (turns : List Turn),
    s.hostNext k h (.winWrite 0x04 4 v) rest turns → s.pend = true →
    step s = .next { s with
      dropped := true, schedule := turns, hosts := s.hosts.set k { h with prog := rest } }

/-- Writes to ADDR and LEN set the register, busy or not; a write to STATUS clears DROPPED when bit 1 is 1;
writes to ID, RDATA, CAPS and the reserved offsets are ignored (R35, R37, R55, R92). -/
def Obligations.OtherWindowWrites : Prop :=
  ∀ (s : State) (k off : Nat) (h : HostAgent) (v : Word) (rest : List HostStmt) (turns : List Turn),
    s.hostNext k h (.winWrite off 4 v) rest turns → off % 4 = 0 → off < 256 → off ≠ 0x04 →
    step s = .next { s with
      addr := if off = 0x08 then v else s.addr
      len := if off = 0x0C then v else s.len
      dropped := if off = 0x10 ∧ v.getLsbD 1 = true then false else s.dropped
      schedule := turns, hosts := s.hosts.set k { h with prog := rest } }

/-- A host access to the window that is not an aligned 32-bit access is refused (R55, R291). The model's choice
(log entry 13), no rule of the spec: a `winRead` or `winWrite` at an offset of 256 or more is refused the same
way, and so is a byte access at a physical address inside the window, the `load` and `store` of log entry 12. -/
def Obligations.MisalignedWindowAccessRefused : Prop :=
  ∀ (s : State) (k off width : Nat) (h : HostAgent) (v : Word) (b : Byte) (st : HostStmt)
    (rest : List HostStmt) (turns : List Turn), s.hostNext k h st rest turns →
    ((st = .winRead off width ∨ st = .winWrite off width v) ∧ (width ≠ 4 ∨ off % 4 ≠ 0)) ∨
    ((st = .load (s.plat.base + off) ∨ st = .store (s.plat.base + off) b) ∧ off < 256) →
    step s = .refused .windowAccess

/-- The other host statements (R121, R122; log entry 12): WAIT reads STATUS and stays until BUSY = 0; EXPECT goes on
exactly when RESULT is the expected code, and stops the run otherwise (the model's choice); reading the handle
keeps RDATA; a command on the kept handle is a CMD write of its word, accepted with PEND = 0 (R51) and dropped with
PEND = 1 (R52). -/
def Obligations.HostControlStatements : Prop :=
  ∀ (s : State) (k r : Nat) (h : HostAgent) (i : Instr) (rest : List HostStmt) (turns : List Turn),
    (s.hostNext k h .wait rest turns →
      step s = .next { s with
        schedule := turns
        hosts := s.hosts.set k
          { h with prog := if s.pend then .wait :: rest else rest, got := s.statusWord } }) ∧
    (s.hostNext k h (.expect r) rest turns →
      step s = if s.result.code = r then
          .next { s with schedule := turns, hosts := s.hosts.set k { h with prog := rest, got := s.statusWord } }
        else .fault .expectFailed) ∧
    (s.hostNext k h .readHandle rest turns →
      step s = .next { s with
        schedule := turns
        hosts := s.hosts.set k { h with prog := rest, got := s.rdata, handle := s.rdata.toNat } }) ∧
    (s.hostNext k h (.cmdKept i) rest turns → s.pend = false →
      step s = .next { s with
        cmdLast := encode (i.withHandle h.handle), lcmd := encode (i.withHandle h.handle)
        laddr := s.addr, llen := s.len, pend := true
        schedule := turns, hosts := s.hosts.set k { h with prog := rest } }) ∧
    (s.hostNext k h (.cmdKept i) rest turns → s.pend = true →
      step s = .next { s with
        dropped := true, schedule := turns, hosts := s.hosts.set k { h with prog := rest } })

/-- A pending command runs on the arguments latched at acceptance: host writes to ADDR and LEN meanwhile
change nothing of what it does (R35). -/
def Obligations.PendingCommandUsesLatch : Prop :=
  ∀ (i : Instr) (s t : State) (a n : Word), exec i s = .next t →
    exec i { s with addr := a, len := n } = .next { t with addr := a, len := n }

/-- A host read or write of a byte in the pending command's DMA range while BUSY = 1 adds HazardDmaRange to the
fault set, whatever the outcome of the command's checks (R307). Host addresses outside the window only. The host's
access is the `load` or `store` of log entry 12, the model's choice. -/
def Obligations.DmaRangeAccessIsHazard : Prop :=
  ∀ (s : State) (k x : Nat) (h : HostAgent) (b : Byte) (st : HostStmt) (rest : List HostStmt)
    (turns : List Turn) (i : Instr), s.hostNext k h st rest turns → st = .load x ∨ st = .store x b →
    s.inWindow x = false → s.pend = true → decode s.lcmd = .ok i →
    s.laddr.toNat ≤ x → x < s.laddr.toNat + transferWidth i s.llen.toNat → x < 2 ^ 32 →
    ∃ t, step s = .next t ∧ Fault.hazardDmaRange ∈ t.faults

/-- A host access to host memory that is in no pending command's DMA range reads or writes that byte, adds no
fault and touches nothing else (R290, R307: no fault outside the range). That the access reads or changes host
memory at once, in its own step, is the model's choice (log entry 11: R97 leaves the hosts' memory model to the
platform), and so are the statements `load` and `store` themselves (log entry 12). -/
def Obligations.FreeMemoryAccess : Prop :=
  ∀ (s : State) (k x : Nat) (h : HostAgent) (b : Byte) (rest : List HostStmt) (turns : List Turn),
    s.inWindow x = false → x < 2 ^ 32 →
    (s.pend = true → ∀ i, decode s.lcmd = .ok i →
      x < s.laddr.toNat ∨ s.laddr.toNat + transferWidth i s.llen.toNat ≤ x) →
    (s.hostNext k h (.load x) rest turns →
      step s = .next { s with
        schedule := turns
        hosts := s.hosts.set k { h with prog := rest, got := (Memory.read s.mem x).setWidth 32 } }) ∧
    (s.hostNext k h (.store x b) rest turns → ∃ m,
      step s = .next { s with
        schedule := turns, mem := m, hosts := s.hosts.set k { h with prog := rest } } ∧
      Memory.read m x = b ∧ ∀ y, y ≠ x → Memory.read m y = Memory.read s.mem y)

/-- The fault set only grows, and only by HazardDmaRange, added while a command is pending (R290, R307). -/
def Obligations.FaultSetOnlyGrows : Prop :=
  ∀ (s t : State), step s = .next t →
    (∀ f ∈ s.faults, f ∈ t.faults) ∧
    (∀ f ∈ t.faults, f ∉ s.faults → f = .hazardDmaRange ∧ s.pend = true)

/-! ### Reset and the invariant -/

/-- The reset values of R300: every register, the latch and every slot. -/
def Obligations.ResetValues : Prop :=
  State.reset.cmdLast = 0 ∧ State.reset.addr = 0 ∧ State.reset.len = 0 ∧ State.reset.statusWord = 0 ∧
  State.reset.rdata = 0 ∧ State.reset.pend = false ∧ State.reset.lcmd = 0 ∧ State.reset.laddr = 0 ∧
  State.reset.llen = 0 ∧ State.reset.readWindow 0x00 = 0x53484132#32 ∧
  State.reset.readWindow 0x18 = 0x00000704#32 ∧ ∀ h, State.reset.slot h = Slot.free

/-- A platform reset at any time takes every engine register and slot to its reset value (R300, R302), and
changes no byte of host memory outside the write range of an abandoned FINALIZE, HMAC_FINALIZE or EXPORT
whose every check would pass, so that it would have ended with Ok (R301). -/
def Obligations.ResetTurnErasesEngine : Prop :=
  ∀ (s : State) (turns : List Turn), s.schedule = .reset :: turns →
    ∃ t, step s = .next t ∧ t.cmdLast = 0 ∧ t.addr = 0 ∧ t.len = 0 ∧ t.rdata = 0 ∧ t.dropped = false ∧
      t.result = .ok ∧ t.pend = false ∧ t.lcmd = 0 ∧ t.laddr = 0 ∧ t.llen = 0 ∧
      (∀ h, t.slot h = Slot.free) ∧
      ∀ x, (¬ ∃ F h i n, s.pend = true ∧ decode s.lcmd = .ok i ∧
          ((i = .finalize F h ∧ n = F.digLen) ∨ (i = .hmacFinalize F h ∧ n = F.digLen) ∨
            (i = .exportCtx F h ∧ n = F.imageSize)) ∧
          (∃ u, exec i s = .next u ∧ u.result = .ok) ∧ s.laddr.toNat ≤ x ∧ x < s.laddr.toNat + n) →
        Memory.read t.mem x = Memory.read s.mem x

/-- The state after reset meets the invariant. -/
def Obligations.ResetMeetsInvariant : Prop := State.reset.Inv

/-- Every step keeps the invariant: the slot invariants of R41 and R45 to R47 and the form of memory. -/
def Obligations.StepKeepsInvariant : Prop :=
  ∀ (s t : State), s.Inv → step s = .next t → t.Inv

/-- R255: after CLEANUP or HMAC_CLEANUP nothing is left that depends on what the slot held: two states that
differ only in the contents of the slot go to the same state. -/
def Obligations.CleanupErasesContents : Prop :=
  ∀ (s : State) (h : Nat) (x : Slot), 1 ≤ h → h ≤ 4 →
    (x.kind = .digest → (s.slot h).kind = .digest →
      exec (.cleanup h) (s.setSlot h x) = exec (.cleanup h) s) ∧
    (x.kind = .hmac → (s.slot h).kind = .hmac →
      exec (.hmacCleanup h) (s.setSlot h x) = exec (.hmacCleanup h) s)

/-- R48: no register of the window depends on what a slot holds, and a command that does not name slot g stores
the same host memory, ends with the same RESULT and RDATA and leaves every other slot the same, whatever a slot
of g's kind holds in its place. -/
def Obligations.SlotContentsStayInside : Prop :=
  ∀ (s : State) (g : Nat) (x : Slot), x.kind = (s.slot g).kind →
    (∀ off, (s.setSlot g x).readWindow off = s.readWindow off) ∧
    (∀ (i : Instr) (t u : State), i.handle? ≠ some g → exec i s = .next t →
      exec i (s.setSlot g x) = .next u →
      u.mem = t.mem ∧ u.result = t.result ∧ u.rdata = t.rdata ∧ ∀ k, k ≠ g → u.slot k = t.slot k)
end

