-- ==== Sys2Proof/Laws/State.lean ====
section
/-! SUPPORT. One lemma per field of State for each state update, so that no later proof unfolds a record update. -/

namespace Sys2Proof.Machine.State

/-! ### DMA write -/

@[simp] theorem storeBytes_cmdLast (s : State) (a : Nat) (bs : List Byte) : (s.storeBytes a bs).cmdLast = s.cmdLast := rfl
@[simp] theorem storeBytes_addr (s : State) (a : Nat) (bs : List Byte) : (s.storeBytes a bs).addr = s.addr := rfl
@[simp] theorem storeBytes_len (s : State) (a : Nat) (bs : List Byte) : (s.storeBytes a bs).len = s.len := rfl
@[simp] theorem storeBytes_rdata (s : State) (a : Nat) (bs : List Byte) : (s.storeBytes a bs).rdata = s.rdata := rfl
@[simp] theorem storeBytes_dropped (s : State) (a : Nat) (bs : List Byte) : (s.storeBytes a bs).dropped = s.dropped := rfl
@[simp] theorem storeBytes_result (s : State) (a : Nat) (bs : List Byte) : (s.storeBytes a bs).result = s.result := rfl
@[simp] theorem storeBytes_pend (s : State) (a : Nat) (bs : List Byte) : (s.storeBytes a bs).pend = s.pend := rfl
@[simp] theorem storeBytes_lcmd (s : State) (a : Nat) (bs : List Byte) : (s.storeBytes a bs).lcmd = s.lcmd := rfl
@[simp] theorem storeBytes_laddr (s : State) (a : Nat) (bs : List Byte) : (s.storeBytes a bs).laddr = s.laddr := rfl
@[simp] theorem storeBytes_llen (s : State) (a : Nat) (bs : List Byte) : (s.storeBytes a bs).llen = s.llen := rfl
@[simp] theorem storeBytes_slots (s : State) (a : Nat) (bs : List Byte) : (s.storeBytes a bs).slots = s.slots := rfl
@[simp] theorem storeBytes_mem (s : State) (a : Nat) (bs : List Byte) : (s.storeBytes a bs).mem = Memory.writeRange s.mem a bs := rfl
@[simp] theorem storeBytes_faults (s : State) (a : Nat) (bs : List Byte) : (s.storeBytes a bs).faults = s.faults := rfl
@[simp] theorem storeBytes_plat (s : State) (a : Nat) (bs : List Byte) : (s.storeBytes a bs).plat = s.plat := rfl
@[simp] theorem storeBytes_hosts (s : State) (a : Nat) (bs : List Byte) : (s.storeBytes a bs).hosts = s.hosts := rfl
@[simp] theorem storeBytes_schedule (s : State) (a : Nat) (bs : List Byte) : (s.storeBytes a bs).schedule = s.schedule := rfl
@[simp] theorem storeBytes_raced (s : State) (a : Nat) (bs : List Byte) : (s.storeBytes a bs).raced = s.raced := rfl
@[simp] theorem storeBytes_freeCount (s : State) (a : Nat) (bs : List Byte) : (s.storeBytes a bs).freeCount = s.freeCount := rfl

/-! ### Completion -/

@[simp] theorem finish_cmdLast (s : State) (r : Result) (d : Word) : (s.finish r d).cmdLast = s.cmdLast := rfl
@[simp] theorem finish_addr (s : State) (r : Result) (d : Word) : (s.finish r d).addr = s.addr := rfl
@[simp] theorem finish_len (s : State) (r : Result) (d : Word) : (s.finish r d).len = s.len := rfl
@[simp] theorem finish_rdata (s : State) (r : Result) (d : Word) : (s.finish r d).rdata = d := rfl
@[simp] theorem finish_dropped (s : State) (r : Result) (d : Word) : (s.finish r d).dropped = s.dropped := rfl
@[simp] theorem finish_result (s : State) (r : Result) (d : Word) : (s.finish r d).result = r := rfl
@[simp] theorem finish_pend (s : State) (r : Result) (d : Word) : (s.finish r d).pend = false := rfl
@[simp] theorem finish_lcmd (s : State) (r : Result) (d : Word) : (s.finish r d).lcmd = s.lcmd := rfl
@[simp] theorem finish_laddr (s : State) (r : Result) (d : Word) : (s.finish r d).laddr = s.laddr := rfl
@[simp] theorem finish_llen (s : State) (r : Result) (d : Word) : (s.finish r d).llen = s.llen := rfl
@[simp] theorem finish_slots (s : State) (r : Result) (d : Word) : (s.finish r d).slots = s.slots := rfl
@[simp] theorem finish_mem (s : State) (r : Result) (d : Word) : (s.finish r d).mem = s.mem := rfl
@[simp] theorem finish_faults (s : State) (r : Result) (d : Word) : (s.finish r d).faults = s.faults := rfl
@[simp] theorem finish_plat (s : State) (r : Result) (d : Word) : (s.finish r d).plat = s.plat := rfl
@[simp] theorem finish_hosts (s : State) (r : Result) (d : Word) : (s.finish r d).hosts = s.hosts := rfl
@[simp] theorem finish_schedule (s : State) (r : Result) (d : Word) : (s.finish r d).schedule = s.schedule := rfl
@[simp] theorem finish_raced (s : State) (r : Result) (d : Word) : (s.finish r d).raced = s.raced := rfl
@[simp] theorem finish_freeCount (s : State) (r : Result) (d : Word) : (s.finish r d).freeCount = s.freeCount := rfl

/-! ### Completion with Ok -/

@[simp] theorem complete_cmdLast (s : State) (d : Word) : (s.complete d).cmdLast = s.cmdLast := rfl
@[simp] theorem complete_addr (s : State) (d : Word) : (s.complete d).addr = s.addr := rfl
@[simp] theorem complete_len (s : State) (d : Word) : (s.complete d).len = s.len := rfl
@[simp] theorem complete_rdata (s : State) (d : Word) : (s.complete d).rdata = d := rfl
@[simp] theorem complete_dropped (s : State) (d : Word) : (s.complete d).dropped = s.dropped := rfl
@[simp] theorem complete_result (s : State) (d : Word) : (s.complete d).result = .ok := rfl
@[simp] theorem complete_pend (s : State) (d : Word) : (s.complete d).pend = false := rfl
@[simp] theorem complete_lcmd (s : State) (d : Word) : (s.complete d).lcmd = s.lcmd := rfl
@[simp] theorem complete_laddr (s : State) (d : Word) : (s.complete d).laddr = s.laddr := rfl
@[simp] theorem complete_llen (s : State) (d : Word) : (s.complete d).llen = s.llen := rfl
@[simp] theorem complete_slots (s : State) (d : Word) : (s.complete d).slots = s.slots := rfl
@[simp] theorem complete_mem (s : State) (d : Word) : (s.complete d).mem = s.mem := rfl
@[simp] theorem complete_faults (s : State) (d : Word) : (s.complete d).faults = s.faults := rfl
@[simp] theorem complete_plat (s : State) (d : Word) : (s.complete d).plat = s.plat := rfl
@[simp] theorem complete_hosts (s : State) (d : Word) : (s.complete d).hosts = s.hosts := rfl
@[simp] theorem complete_schedule (s : State) (d : Word) : (s.complete d).schedule = s.schedule := rfl
@[simp] theorem complete_raced (s : State) (d : Word) : (s.complete d).raced = s.raced := rfl
@[simp] theorem complete_freeCount (s : State) (d : Word) : (s.complete d).freeCount = s.freeCount := rfl

/-! ### Raising a result -/

@[simp] theorem raise_cmdLast (s : State) (r : Result) : (s.raise r).cmdLast = s.cmdLast := rfl
@[simp] theorem raise_addr (s : State) (r : Result) : (s.raise r).addr = s.addr := rfl
@[simp] theorem raise_len (s : State) (r : Result) : (s.raise r).len = s.len := rfl
@[simp] theorem raise_rdata (s : State) (r : Result) : (s.raise r).rdata = 0 := rfl
@[simp] theorem raise_dropped (s : State) (r : Result) : (s.raise r).dropped = s.dropped := rfl
@[simp] theorem raise_result (s : State) (r : Result) : (s.raise r).result = r := rfl
@[simp] theorem raise_pend (s : State) (r : Result) : (s.raise r).pend = false := rfl
@[simp] theorem raise_lcmd (s : State) (r : Result) : (s.raise r).lcmd = s.lcmd := rfl
@[simp] theorem raise_laddr (s : State) (r : Result) : (s.raise r).laddr = s.laddr := rfl
@[simp] theorem raise_llen (s : State) (r : Result) : (s.raise r).llen = s.llen := rfl
@[simp] theorem raise_slots (s : State) (r : Result) : (s.raise r).slots = s.slots := rfl
@[simp] theorem raise_mem (s : State) (r : Result) : (s.raise r).mem = s.mem := rfl
@[simp] theorem raise_faults (s : State) (r : Result) : (s.raise r).faults = s.faults := rfl
@[simp] theorem raise_plat (s : State) (r : Result) : (s.raise r).plat = s.plat := rfl
@[simp] theorem raise_hosts (s : State) (r : Result) : (s.raise r).hosts = s.hosts := rfl
@[simp] theorem raise_schedule (s : State) (r : Result) : (s.raise r).schedule = s.schedule := rfl
@[simp] theorem raise_raced (s : State) (r : Result) : (s.raise r).raced = s.raced := rfl
@[simp] theorem raise_freeCount (s : State) (r : Result) : (s.raise r).freeCount = s.freeCount := rfl

/-! ### Acceptance of a command word -/

@[simp] theorem accept_cmdLast (s : State) (v : Word) : (s.accept v).cmdLast = v := rfl
@[simp] theorem accept_addr (s : State) (v : Word) : (s.accept v).addr = s.addr := rfl
@[simp] theorem accept_len (s : State) (v : Word) : (s.accept v).len = s.len := rfl
@[simp] theorem accept_rdata (s : State) (v : Word) : (s.accept v).rdata = s.rdata := rfl
@[simp] theorem accept_dropped (s : State) (v : Word) : (s.accept v).dropped = s.dropped := rfl
@[simp] theorem accept_result (s : State) (v : Word) : (s.accept v).result = s.result := rfl
@[simp] theorem accept_pend (s : State) (v : Word) : (s.accept v).pend = true := rfl
@[simp] theorem accept_lcmd (s : State) (v : Word) : (s.accept v).lcmd = v := rfl
@[simp] theorem accept_laddr (s : State) (v : Word) : (s.accept v).laddr = s.addr := rfl
@[simp] theorem accept_llen (s : State) (v : Word) : (s.accept v).llen = s.len := rfl
@[simp] theorem accept_slots (s : State) (v : Word) : (s.accept v).slots = s.slots := rfl
@[simp] theorem accept_mem (s : State) (v : Word) : (s.accept v).mem = s.mem := rfl
@[simp] theorem accept_faults (s : State) (v : Word) : (s.accept v).faults = s.faults := rfl
@[simp] theorem accept_plat (s : State) (v : Word) : (s.accept v).plat = s.plat := rfl
@[simp] theorem accept_hosts (s : State) (v : Word) : (s.accept v).hosts = s.hosts := rfl
@[simp] theorem accept_schedule (s : State) (v : Word) : (s.accept v).schedule = s.schedule := rfl
@[simp] theorem accept_raced (s : State) (v : Word) : (s.accept v).raced = s.raced := rfl
@[simp] theorem accept_freeCount (s : State) (v : Word) : (s.accept v).freeCount = s.freeCount := rfl

/-! ### Host agents -/

@[simp] theorem setHost_cmdLast (s : State) (k : Nat) (h : HostAgent) : (s.setHost k h).cmdLast = s.cmdLast := rfl
@[simp] theorem setHost_addr (s : State) (k : Nat) (h : HostAgent) : (s.setHost k h).addr = s.addr := rfl
@[simp] theorem setHost_len (s : State) (k : Nat) (h : HostAgent) : (s.setHost k h).len = s.len := rfl
@[simp] theorem setHost_rdata (s : State) (k : Nat) (h : HostAgent) : (s.setHost k h).rdata = s.rdata := rfl
@[simp] theorem setHost_dropped (s : State) (k : Nat) (h : HostAgent) : (s.setHost k h).dropped = s.dropped := rfl
@[simp] theorem setHost_result (s : State) (k : Nat) (h : HostAgent) : (s.setHost k h).result = s.result := rfl
@[simp] theorem setHost_pend (s : State) (k : Nat) (h : HostAgent) : (s.setHost k h).pend = s.pend := rfl
@[simp] theorem setHost_lcmd (s : State) (k : Nat) (h : HostAgent) : (s.setHost k h).lcmd = s.lcmd := rfl
@[simp] theorem setHost_laddr (s : State) (k : Nat) (h : HostAgent) : (s.setHost k h).laddr = s.laddr := rfl
@[simp] theorem setHost_llen (s : State) (k : Nat) (h : HostAgent) : (s.setHost k h).llen = s.llen := rfl
@[simp] theorem setHost_slots (s : State) (k : Nat) (h : HostAgent) : (s.setHost k h).slots = s.slots := rfl
@[simp] theorem setHost_mem (s : State) (k : Nat) (h : HostAgent) : (s.setHost k h).mem = s.mem := rfl
@[simp] theorem setHost_faults (s : State) (k : Nat) (h : HostAgent) : (s.setHost k h).faults = s.faults := rfl
@[simp] theorem setHost_plat (s : State) (k : Nat) (h : HostAgent) : (s.setHost k h).plat = s.plat := rfl
@[simp] theorem setHost_hosts (s : State) (k : Nat) (h : HostAgent) : (s.setHost k h).hosts = s.hosts.set k h := rfl
@[simp] theorem setHost_schedule (s : State) (k : Nat) (h : HostAgent) : (s.setHost k h).schedule = s.schedule := rfl
@[simp] theorem setHost_raced (s : State) (k : Nat) (h : HostAgent) : (s.setHost k h).raced = s.raced := rfl
@[simp] theorem setHost_freeCount (s : State) (k : Nat) (h : HostAgent) : (s.setHost k h).freeCount = s.freeCount := rfl

/-! ### Slot writes -/

@[simp] theorem setSlot_cmdLast (s : State) (h : Nat) (x : Slot) : (s.setSlot h x).cmdLast = s.cmdLast := by
  cases h <;> rfl
@[simp] theorem setSlot_addr (s : State) (h : Nat) (x : Slot) : (s.setSlot h x).addr = s.addr := by
  cases h <;> rfl
@[simp] theorem setSlot_len (s : State) (h : Nat) (x : Slot) : (s.setSlot h x).len = s.len := by
  cases h <;> rfl
@[simp] theorem setSlot_rdata (s : State) (h : Nat) (x : Slot) : (s.setSlot h x).rdata = s.rdata := by
  cases h <;> rfl
@[simp] theorem setSlot_dropped (s : State) (h : Nat) (x : Slot) : (s.setSlot h x).dropped = s.dropped := by
  cases h <;> rfl
@[simp] theorem setSlot_result (s : State) (h : Nat) (x : Slot) : (s.setSlot h x).result = s.result := by
  cases h <;> rfl
@[simp] theorem setSlot_pend (s : State) (h : Nat) (x : Slot) : (s.setSlot h x).pend = s.pend := by
  cases h <;> rfl
@[simp] theorem setSlot_lcmd (s : State) (h : Nat) (x : Slot) : (s.setSlot h x).lcmd = s.lcmd := by
  cases h <;> rfl
@[simp] theorem setSlot_laddr (s : State) (h : Nat) (x : Slot) : (s.setSlot h x).laddr = s.laddr := by
  cases h <;> rfl
@[simp] theorem setSlot_llen (s : State) (h : Nat) (x : Slot) : (s.setSlot h x).llen = s.llen := by
  cases h <;> rfl
@[simp] theorem setSlot_mem (s : State) (h : Nat) (x : Slot) : (s.setSlot h x).mem = s.mem := by
  cases h <;> rfl
@[simp] theorem setSlot_faults (s : State) (h : Nat) (x : Slot) : (s.setSlot h x).faults = s.faults := by
  cases h <;> rfl
@[simp] theorem setSlot_plat (s : State) (h : Nat) (x : Slot) : (s.setSlot h x).plat = s.plat := by
  cases h <;> rfl
@[simp] theorem setSlot_hosts (s : State) (h : Nat) (x : Slot) : (s.setSlot h x).hosts = s.hosts := by
  cases h <;> rfl
@[simp] theorem setSlot_schedule (s : State) (h : Nat) (x : Slot) : (s.setSlot h x).schedule = s.schedule := by
  cases h <;> rfl
@[simp] theorem setSlot_raced (s : State) (h : Nat) (x : Slot) : (s.setSlot h x).raced = s.raced := by
  cases h <;> rfl
@[simp] theorem setSlot_freeCount (s : State) (h : Nat) (x : Slot) : (s.setSlot h x).freeCount = s.freeCount := by
  cases h <;> rfl

/-! ### The reset of the engine -/

@[simp] theorem resetEngine_cmdLast (s : State) : s.resetEngine.cmdLast = State.reset.cmdLast := rfl
@[simp] theorem resetEngine_addr (s : State) : s.resetEngine.addr = State.reset.addr := rfl
@[simp] theorem resetEngine_len (s : State) : s.resetEngine.len = State.reset.len := rfl
@[simp] theorem resetEngine_rdata (s : State) : s.resetEngine.rdata = State.reset.rdata := rfl
@[simp] theorem resetEngine_dropped (s : State) : s.resetEngine.dropped = State.reset.dropped := rfl
@[simp] theorem resetEngine_result (s : State) : s.resetEngine.result = State.reset.result := rfl
@[simp] theorem resetEngine_pend (s : State) : s.resetEngine.pend = State.reset.pend := rfl
@[simp] theorem resetEngine_lcmd (s : State) : s.resetEngine.lcmd = State.reset.lcmd := rfl
@[simp] theorem resetEngine_laddr (s : State) : s.resetEngine.laddr = State.reset.laddr := rfl
@[simp] theorem resetEngine_llen (s : State) : s.resetEngine.llen = State.reset.llen := rfl
@[simp] theorem resetEngine_slots (s : State) : s.resetEngine.slots = State.reset.slots := rfl
@[simp] theorem resetEngine_mem (s : State) : s.resetEngine.mem = s.mem := rfl
@[simp] theorem resetEngine_faults (s : State) : s.resetEngine.faults = s.faults := rfl
@[simp] theorem resetEngine_plat (s : State) : s.resetEngine.plat = s.plat := rfl
@[simp] theorem resetEngine_hosts (s : State) : s.resetEngine.hosts = s.hosts := rfl
@[simp] theorem resetEngine_schedule (s : State) : s.resetEngine.schedule = s.schedule := rfl
@[simp] theorem resetEngine_raced (s : State) : s.resetEngine.raced = State.reset.raced := rfl
@[simp] theorem resetEngine_freeCount (s : State) : s.resetEngine.freeCount = s.freeCount := rfl

/-! ### Reading slots and operands through the updates -/

@[simp] theorem storeBytes_slot (s : State) (a : Nat) (bs : List Byte) (h : Nat) :
    (s.storeBytes a bs).slot h = s.slot h := by
  cases h <;> rfl

@[simp] theorem finish_slot (s : State) (r : Result) (d : Word) (h : Nat) : (s.finish r d).slot h = s.slot h := by
  cases h <;> rfl

@[simp] theorem complete_slot (s : State) (d : Word) (h : Nat) : (s.complete d).slot h = s.slot h := by
  cases h <;> rfl

@[simp] theorem raise_slot (s : State) (r : Result) (h : Nat) : (s.raise r).slot h = s.slot h := by
  cases h <;> rfl

/-- A slot reads only the slot bank. -/
theorem slot_congr {s t : State} (e : t.slots = s.slots) (h : Nat) : t.slot h = s.slot h := by
  cases h <;> simp [State.slot, e]

/-- The handles that name a slot read back what was written. -/
theorem slot_setSlot_same (s : State) {h : Nat} (x : Slot) (h1 : 1 ≤ h) (h2 : h ≤ Config.nctx) :
    (s.setSlot h x).slot h = x := by
  obtain _ | k := h
  · omega
  · have hk : k < Config.nctx := by omega
    simp [State.setSlot, State.slot, hk]

/-- Every other handle reads as before. -/
theorem slot_setSlot_ne (s : State) {h g : Nat} (x : Slot) (hg : g ≠ h) : (s.setSlot h x).slot g = s.slot g := by
  obtain _ | k := h
  · rfl
  · obtain _ | j := g
    · rfl
    · have hj : k ≠ j := by omega
      simp [State.setSlot, State.slot, hj]

/-- A handle that names no slot reads as the free value. -/
theorem slot_out_of_range (s : State) {h : Nat} (hh : h = 0 ∨ Config.nctx < h) : s.slot h = Slot.free := by
  obtain _ | k := h
  · rfl
  · have hk : ¬ k < Config.nctx := by omega
    simp [State.slot, hk]

/-- Two states with the same slots under every handle have the same slot bank. -/
theorem slots_ext {s t : State} (e : ∀ h, 1 ≤ h → h ≤ Config.nctx → t.slot h = s.slot h) : t.slots = s.slots := by
  apply Vector.ext
  intro k hk
  simpa [State.slot, hk] using e (k + 1) (by omega) (by omega)

/-- The slots of the bank are those under the handles 1..NCTX. -/
theorem mem_slots_iff (s : State) (x : Slot) :
    x ∈ s.slots.toList ↔ ∃ h, 1 ≤ h ∧ h ≤ Config.nctx ∧ s.slot h = x := by
  constructor
  · intro hx
    obtain ⟨k, hk, rfl⟩ := List.getElem_of_mem hx
    refine ⟨k + 1, by omega, by simpa using hk, ?_⟩
    have hk' : k < Config.nctx := by simpa using hk
    simp [State.slot, hk']
  · rintro ⟨h, h1, h2, rfl⟩
    obtain _ | k := h
    · omega
    · have hk : k < Config.nctx := by omega
      simp [State.slot, hk]

end Sys2Proof.Machine.State
end

