-- ==== Sys2Proof/Laws/Memory.lean ====
section
/-! SUPPORT. Host memory: a read after a write, what a write leaves alone, and the canonical form, which every memory
operation keeps. -/

namespace Sys2Proof.Machine.Memory

/-- An address with no entry reads as background. -/
theorem read_unlisted (m : Memory) (a : Nat) (h : ∀ c ∈ m, c.1 ≠ a) : read m a = background := by
  induction m with
  | nil => rfl
  | cons c rest ih =>
    have hc : c.1 ≠ a := h c (by simp)
    simp only [read, hc, if_false]
    exact ih fun x hx => h x (by simp [hx])

/-- Taking out the entries of another address changes nothing. -/
theorem read_filter_ne (m : Memory) (a x : Nat) (hx : x ≠ a) : read (m.filter fun c => c.1 ≠ a) x = read m x := by
  induction m with
  | nil => rfl
  | cons c rest ih =>
    by_cases hc : c.1 = a
    · have hcx : c.1 ≠ x := fun e => hx (e.symm.trans hc)
      simp [hc, read, Ne.symm hx, ← ih]
    · by_cases hcx : c.1 = x <;> simp_all [read]

theorem read_insert_same (m : Memory) (a : Nat) (b : Byte) (h : ∀ c ∈ m, c.1 ≠ a) : read (insert m a b) a = b := by
  induction m with
  | nil => simp [insert, read]
  | cons c rest ih =>
    have hc : c.1 ≠ a := h c (by simp)
    by_cases h1 : a < c.1
    · simp [insert, h1, read]
    · simp [insert, h1, read, hc, ih fun x hx => h x (by simp [hx])]

theorem read_insert_ne (m : Memory) (a x : Nat) (b : Byte) (hx : x ≠ a) : read (insert m a b) x = read m x := by
  induction m with
  | nil => simp [insert, read, Ne.symm hx]
  | cons c rest ih =>
    by_cases h1 : a < c.1
    · simp [insert, h1, read, Ne.symm hx]
    · simp [insert, h1, read, ih]

/-- Reading the byte just written gives it back. -/
theorem read_put_same (m : Memory) (a : Nat) (b : Byte) : read (put m a b) a = b := by
  have hout : ∀ c ∈ m.filter fun c => c.1 ≠ a, c.1 ≠ a := fun c hc => by simpa using (List.mem_filter.1 hc).2
  by_cases hb : b = background
  · simp only [put, hb, if_true]
    exact read_unlisted _ _ hout
  · simp only [put, hb, if_false]
    exact read_insert_same _ _ _ hout

/-- Reading another byte gives what was there. -/
theorem read_put_ne (m : Memory) (a x : Nat) (b : Byte) (hx : x ≠ a) : read (put m a b) x = read m x := by
  by_cases hb : b = background
  · simp only [put, hb, if_true]
    exact read_filter_ne m a x hx
  · simp only [put, hb, if_false]
    rw [read_insert_ne _ _ _ _ hx, read_filter_ne _ _ _ hx]

theorem mem_insert (m : Memory) (a : Nat) (b : Byte) {c : Host.Cell} : c ∈ insert m a b ↔ c = (a, b) ∨ c ∈ m := by
  induction m with
  | nil => simp [insert]
  | cons d rest ih =>
    by_cases h1 : a < d.1
    · simp [insert, h1]
    · simp only [insert, h1, if_false, List.mem_cons, ih]
      tauto

/-- An entry listed after a write was listed before or is the one written. -/
theorem mem_put (m : Memory) (a : Nat) (b : Byte) {c : Host.Cell} (hc : c ∈ put m a b) :
    c ∈ m ∨ (c = (a, b) ∧ b ≠ background) := by
  by_cases hb : b = background
  · simp only [put, hb, if_true] at hc
    exact .inl (List.mem_filter.1 hc).1
  · simp only [put, hb, if_false] at hc
    rcases (mem_insert _ _ _).1 hc with h | h
    · exact .inr ⟨h, hb⟩
    · exact .inl (List.mem_filter.1 h).1

theorem insert_sorted (m : Memory) (a : Nat) (b : Byte) (hp : m.Pairwise fun x y => x.1 < y.1)
    (h : ∀ c ∈ m, c.1 ≠ a) : (insert m a b).Pairwise fun x y => x.1 < y.1 := by
  induction m with
  | nil => simp [insert]
  | cons d rest ih =>
    obtain ⟨hd, hrest⟩ := List.pairwise_cons.1 hp
    have hda : d.1 ≠ a := h d (by simp)
    by_cases h1 : a < d.1
    · simp only [insert, h1, if_true]
      refine List.pairwise_cons.2 ⟨fun c hc => ?_, hp⟩
      rcases List.mem_cons.1 hc with rfl | hc
      · exact h1
      · exact Nat.lt_trans h1 (hd c hc)
    · simp only [insert, h1, if_false]
      refine List.pairwise_cons.2 ⟨fun c hc => ?_, ih hrest fun c hc => h c (by simp [hc])⟩
      rcases (mem_insert _ _ _).1 hc with rfl | hc
      · show d.1 < a
        omega
      · exact hd c hc

/-- A write keeps the canonical form. -/
theorem put_wf (m : Memory) (hm : m.wf) (a : Nat) (b : Byte) : Memory.wf (put m a b) := by
  have hs : (m.filter fun c => c.1 ≠ a).Pairwise fun x y => x.1 < y.1 := hm.1.sublist List.filter_sublist
  refine ⟨?_, fun c hc => ?_⟩
  · by_cases hb : b = background
    · simpa only [put, hb, if_true] using hs
    · simp only [put, hb, if_false]
      exact insert_sorted _ _ _ hs fun c hc => by simpa using (List.mem_filter.1 hc).2
  · rcases mem_put m a b hc with h | ⟨h, hb⟩
    · exact hm.2 c h
    · subst h; exact hb

/-- A string write keeps the canonical form. -/
theorem writeRange_wf (bs : List Byte) : ∀ (m : Memory) (_ : m.wf) (a : Nat), Memory.wf (writeRange m a bs) := by
  induction bs with
  | nil => exact fun m hm _ => hm
  | cons b bs ih => exact fun m hm a => ih _ (put_wf m hm a b) _

/-- An address listed after a string write was listed before or lies in the range written. -/
theorem mem_writeRange (bs : List Byte) : ∀ (m : Memory) (a : Nat) {c : Host.Cell},
    c ∈ writeRange m a bs → c ∈ m ∨ (a ≤ c.1 ∧ c.1 < a + bs.length) := by
  induction bs with
  | nil => exact fun m a c hc => .inl hc
  | cons b bs ih =>
    intro m a c hc
    rcases ih _ _ hc with h | h
    · rcases mem_put m a b h with h' | ⟨h', -⟩
      · exact .inl h'
      · subst h'; exact .inr ⟨Nat.le_refl _, by simp⟩
    · exact .inr ⟨by omega, by simp only [List.length_cons]; omega⟩

/-- A string write leaves every byte outside its range alone. -/
theorem read_writeRange_outside (bs : List Byte) : ∀ (m : Memory) (a x : Nat),
    x < a ∨ a + bs.length ≤ x → read (writeRange m a bs) x = read m x := by
  induction bs with
  | nil => exact fun m a x _ => rfl
  | cons b bs ih =>
    intro m a x hx
    simp only [List.length_cons] at hx
    rw [writeRange, ih _ _ _ (by omega), read_put_ne _ _ _ _ (by omega)]

@[simp] theorem length_readRange (m : Memory) (a n : Nat) : (readRange m a n).length = n := by
  simp [readRange]

/-- `MemRead` of the range just written gives the string back. -/
theorem readRange_writeRange (bs : List Byte) : ∀ (m : Memory) (a : Nat),
    readRange (writeRange m a bs) a bs.length = bs := by
  induction bs with
  | nil => exact fun m a => rfl
  | cons b bs ih =>
    intro m a
    have hhead : read (writeRange (put m a b) (a + 1) bs) a = b := by
      rw [read_writeRange_outside _ _ _ _ (by omega), read_put_same]
    have htail := ih (put m a b) (a + 1)
    simp only [readRange, writeRange, List.length_cons, List.range_succ_eq_map, List.map_cons, List.map_map,
      Nat.add_zero, hhead, List.cons.injEq, true_and] at htail ⊢
    calc _ = (List.range bs.length).map fun i => read (writeRange (put m a b) (a + 1) bs) (a + 1 + i) := by
            refine List.map_congr_left fun i _ => ?_
            simp only [Function.comp]
            congr 1
            omega
      _ = bs := htail

/-- `MemRead` sees only the bytes of its range. -/
theorem readRange_congr {m m' : Memory} {a n : Nat}
    (h : ∀ x, a ≤ x → x < a + n → read m' x = read m x) : readRange m' a n = readRange m a n := by
  refine List.map_congr_left fun i hi => h _ (by omega) ?_
  have := List.mem_range.1 hi
  omega

end Sys2Proof.Machine.Memory
end

