-- ==== Sys2Proof/Laws/Ops.lean ====
section
/-! SUPPORT. One lemma per shared operation and per check, and the inversion of `exec`: everything a command can do. -/

namespace Sys2Proof.Machine

/-! ### Checks -/

@[simp] theorem firstFailure_nil : firstFailure [] = none := rfl

@[simp] theorem firstFailure_none_cons (cs : List (Option Result)) : firstFailure (none :: cs) = firstFailure cs := rfl

@[simp] theorem firstFailure_some_cons (r : Result) (cs : List (Option Result)) :
    firstFailure (some r :: cs) = some r := rfl

/-- Every check passes exactly when each does. -/
theorem firstFailure_eq_none {cs : List (Option Result)} : firstFailure cs = none ↔ ∀ c ∈ cs, c = none := by
  simp [firstFailure]

/-- The failure reported is that of one of the checks. -/
theorem mem_of_firstFailure {cs : List (Option Result)} {r : Result} (h : firstFailure cs = some r) :
    some r ∈ cs := by
  obtain ⟨c, hc, e⟩ := List.exists_of_findSome?_eq_some h
  simpa using e ▸ hc

/-- What a guarded command can answer. -/
theorem guarded_cases {s t : State} {cs : List (Option Result)} {k : Host.Outcome State Fault Refusal}
    (h : s.guarded cs k = .next t) :
    (∃ r, firstFailure cs = some r ∧ t = s.raise r) ∨ (firstFailure cs = none ∧ k = .next t) := by
  unfold State.guarded at h
  split at h
  · exact .inl ⟨_, ‹_›, by simpa using h.symm⟩
  · exact .inr ⟨‹_›, h⟩

theorem guarded_pass {s : State} {cs : List (Option Result)} {k : Host.Outcome State Fault Refusal}
    (h : firstFailure cs = none) : s.guarded cs k = k := by
  simp [State.guarded, h]

theorem guarded_fail {s : State} {cs : List (Option Result)} {k : Host.Outcome State Fault Refusal} {r : Result}
    (h : firstFailure cs = some r) : s.guarded cs k = .next (s.raise r) := by
  simp [State.guarded, h]

theorem chkCtx_eq_none {s : State} {h : Nat} {k : Kind} :
    s.chkCtx h k = none ↔ 1 ≤ h ∧ h ≤ Config.nctx ∧ (s.slot h).kind = k := by
  simp only [State.chkCtx, ite_eq_right_iff, reduceCtorEq, imp_false, not_or, ne_eq, not_not, Nat.not_lt,
    Nat.one_le_iff_ne_zero]

theorem chkFam_eq_none {s : State} {h : Nat} {F : Family} : s.chkFam h F = none ↔ (s.slot h).fam = F := by
  simp [State.chkFam]

theorem chkPhase_eq_none {s : State} {h : Nat} {S : List Phase} : s.chkPhase h S = none ↔ (s.slot h).phase ∈ S := by
  simp [State.chkPhase]

theorem chkRange_eq_none {a n : Nat} : chkRange a n = none ↔ n = 0 ∨ (a ≠ 0 ∧ a + n ≤ Config.memSize) := by
  simp only [chkRange, ite_eq_right_iff, reduceCtorEq, imp_false, not_and, not_or, Nat.not_lt, ne_eq]
  constructor
  · intro h
    by_cases hn : n = 0
    · exact .inl hn
    · exact .inr (h (by omega))
  · rintro (h | h) hn
    · omega
    · exact h

theorem chkAdmit_eq_none {s : State} {d : Dir} {a n : Nat} : s.chkAdmit d a n = none ↔ s.admits d a n = true := by
  simp [State.chkAdmit]

/-- No check of a command reports Ok. -/
theorem checks_ne_ok (s : State) (i : Instr) : some Result.ok ∉ s.checks i := by
  have h1 : ∀ h k, s.chkCtx h k ≠ some .ok := fun h k => by simp [State.chkCtx]
  have h2 : ∀ h F, s.chkFam h F ≠ some .ok := fun h F => by simp [State.chkFam]
  have h3 : ∀ h S, s.chkPhase h S ≠ some .ok := fun h S => by simp [State.chkPhase]
  have h4 : ∀ a n, chkRange a n ≠ some .ok := fun a n => by simp [chkRange]
  have h5 : ∀ d a n, s.chkAdmit d a n ≠ some .ok := fun d a n => by simp [State.chkAdmit]
  cases i <;> simp [State.checks, State.rangeChecks, Ne.symm (h1 _ _), Ne.symm (h2 _ _), Ne.symm (h3 _ _),
    Ne.symm (h4 _ _), Ne.symm (h5 _ _ _)]

/-- ChkRange and ChkAdmit pass on a range that may be moved. -/
theorem rangeChecks_eq_none {s : State} {d : Dir} {n : Nat} :
    firstFailure (s.rangeChecks d n) = none ↔ s.mayMove d n := by
  simp [firstFailure_eq_none, State.rangeChecks, chkRange_eq_none, chkAdmit_eq_none, State.mayMove]

/-! ### FreeSlot -/

theorem freeSlot_eq_some {s : State} {h : Nat} : s.freeSlot = some h ↔ s.lowestFree h := by
  simp only [State.freeSlot, State.lowestFree, List.find?_range'_eq_some, beq_iff_eq, ne_eq]
  constructor
  · rintro ⟨h1, h2, h3⟩
    refine ⟨?_, ?_, h1, ?_⟩ <;> simp_all
    omega
  · rintro ⟨h1, h2, h3, h4⟩
    refine ⟨h3, ?_, ?_⟩ <;> simp_all
    omega

theorem freeSlot_eq_none {s : State} : s.freeSlot = none ↔ s.full := by
  simp only [State.freeSlot, State.full, List.find?_eq_none, List.mem_range'_1, beq_iff_eq]
  exact ⟨fun h g h1 h2 => h g ⟨h1, by omega⟩, fun h g hg => h g hg.1 (by omega)⟩

/-! ### The inversion of `exec` -/

/-- The effect of a command whose checks pass: `t` in terms of `s`. -/
def Effect (s t : State) : Instr → Prop
  | .ctxsize F => t = s.complete (BitVec.ofNat 32 F.imageSize)
  | .alloc F => ∃ h, s.lowestFree h ∧
      t = (s.setSlot h { kind := .digest, fam := F, phase := .uninit, dc := .zero F, oc := .zero F }).complete
        (BitVec.ofNat 32 h)
  | .init F h => t = (s.setSlot h
      { s.slot h with dc := initDC s.prims F, oc := .zero F, phase := .active }).complete 0
  | .update F h => t = (s.setSlot h
      { s.slot h with dc := absorb s.prims F (s.slot h).dc (s.operandBytes s.opLen) }).complete 0
  | .finalize F h => t = ((s.storeBytes s.opAddr (ser F (finishState s.prims F (s.slot h).dc))).setSlot h
      { s.slot h with
        dc := finalDC F (s.slot h).dc (finishState s.prims F (s.slot h).dc), phase := .finalized }).complete 0
  | .exportCtx F h => t = (s.storeBytes s.opAddr (image F (s.slot h).dc (s.slot h).phase)).complete 0
  | .importCtx F h => ∃ dc ph, parse F (s.operandBytes F.imageSize) = some (dc, ph) ∧
      t = (s.setSlot h { s.slot h with dc := dc, phase := ph }).complete 0
  | .cleanup h => t = (s.setSlot h Slot.free).complete 0
  | .hmacInit F => ∃ h, s.lowestFree h ∧
      t = (s.setSlot h
        { kind := .hmac, fam := F, phase := .active
          dc := absorb s.prims F (initDC s.prims F) (innerKey s.prims F (s.operandBytes s.opLen))
          oc := absorb s.prims F (initDC s.prims F) (outerKey s.prims F (s.operandBytes s.opLen)) }).complete
            (BitVec.ofNat 32 h)
  | .hmacUpdate F h => t = (s.setSlot h
      { s.slot h with dc := absorb s.prims F (s.slot h).dc (s.operandBytes s.opLen) }).complete 0
  | .hmacFinalize F h => ∃ ist oc1 ost, ist = finishState s.prims F (s.slot h).dc ∧
      oc1 = absorb s.prims F (s.slot h).oc (ser F ist) ∧ ost = finishState s.prims F oc1 ∧
      t = ((s.storeBytes s.opAddr (ser F ost)).setSlot h
        { s.slot h with dc := finalDC F (s.slot h).dc ist, oc := finalDC F oc1 ost, phase := .finalized }).complete 0
  | .hmacCleanup h => t = (s.setSlot h Slot.free).complete 0

/-- Everything a command can do: raise a result other than Ok, or, its checks having passed, have its effect. -/
theorem exec_cases {i : Instr} {s t : State} (h : exec i s = .next t) :
    (∃ r, r ≠ .ok ∧ t = s.raise r) ∨ (firstFailure (s.checks i) = none ∧ Effect s t i) := by
  have raised : ∀ {r}, firstFailure (s.checks i) = some r → t = s.raise r →
      (∃ r, r ≠ .ok ∧ t = s.raise r) ∨ (firstFailure (s.checks i) = none ∧ Effect s t i) :=
    fun hr e => .inl ⟨_, fun hok => checks_ne_ok s i (hok ▸ mem_of_firstFailure hr), e⟩
  cases i <;> simp only [exec, execCtxsize, execAlloc, execInit, execUpdate, execFinalize, execExport, execImport,
      execCleanup, execHmacInit, execHmacUpdate, execHmacFinalize, execHmacCleanup] at h <;>
    rcases guarded_cases h with ⟨r, hr, e⟩ | ⟨hn, e⟩ <;> try exact raised hr e
  case importCtx F g =>
    split at e
    · exact .inl ⟨.invalidArguments, by simp, (Host.Outcome.next.inj e).symm⟩
    · exact .inr ⟨hn, _, _, ‹_›, (Host.Outcome.next.inj e).symm⟩
  case alloc F | hmacInit F =>
    split at e
    · exact .inl ⟨.outOfMemory, by simp, (Host.Outcome.next.inj e).symm⟩
    · exact .inr ⟨hn, _, freeSlot_eq_some.1 ‹_›, (Host.Outcome.next.inj e).symm⟩
  case hmacFinalize F g => exact .inr ⟨hn, _, _, _, rfl, rfl, rfl, (Host.Outcome.next.inj e).symm⟩
  all_goals exact .inr ⟨hn, (Host.Outcome.next.inj e).symm⟩

/-- An effect ends with Ok and PEND = 0. -/
theorem Effect.done {s t : State} {i : Instr} (h : Effect s t i) : t.result = .ok ∧ t.pend = false := by
  cases i <;> simp only [Effect] at h
  case alloc F | hmacInit F => obtain ⟨g, -, rfl⟩ := h; exact ⟨rfl, rfl⟩
  case importCtx F g => obtain ⟨dc, ph, -, rfl⟩ := h; exact ⟨rfl, rfl⟩
  case hmacFinalize F g => obtain ⟨_, _, _, -, -, -, rfl⟩ := h; exact ⟨rfl, rfl⟩
  all_goals subst h; exact ⟨rfl, rfl⟩

/-- A command that ends with Ok passed its checks and had its effect. -/
theorem effect_of_ok {i : Instr} {s t : State} (h : exec i s = .next t) (hr : t.result = .ok) :
    firstFailure (s.checks i) = none ∧ Effect s t i := by
  rcases exec_cases h with ⟨r, hne, rfl⟩ | he
  · exact absurd hr hne
  · exact he

/-- A command whose first five checks fail raises that failure. -/
theorem exec_fail {i : Instr} {s : State} {r : Result} (h : firstFailure (s.checks i) = some r) :
    exec i s = .next (s.raise r) := by
  cases i <;> exact guarded_fail h

end Sys2Proof.Machine
end

