-- ==== Sys2Proof/Laws/Bytes.lean ====
section
/-! SUPPORT. Byte strings: lengths, the big-endian codes, slices of concatenations, and overwriting a slice. -/

namespace Sys2Proof.Machine

@[simp] theorem length_zeros (n : Nat) : (zeros n).length = n := by simp [zeros]

@[simp] theorem length_beEnc (n v : Nat) : (beEnc n v).length = n := by simp [beEnc]

@[simp] theorem length_xorAll (b : Byte) (s : List Byte) : (xorAll b s).length = s.length := by simp [xorAll]

theorem getElem?_beEnc {n v i : Nat} (h : i < n) :
    (beEnc n v)[i]? = some (BitVec.ofNat 8 (v >>> (8 * (n - 1 - i)))) := by
  simp [beEnc, h]

/-- The last byte of a big-endian code is the number's low byte, and the others are the code of the rest. -/
theorem beEnc_succ (n v : Nat) : beEnc (n + 1) v = beEnc n (v / 256) ++ [BitVec.ofNat 8 v] := by
  apply List.ext_getElem?
  intro i
  by_cases h : i < n
  · rw [List.getElem?_append_left (by simpa using h), getElem?_beEnc (by omega), getElem?_beEnc h]
    have e : 8 * (n + 1 - 1 - i) = 8 + 8 * (n - 1 - i) := by omega
    rw [e, Nat.shiftRight_add, Nat.shiftRight_eq_div_pow v 8]
  · by_cases h' : i = n
    · subst h'
      rw [List.getElem?_append_right (by simp), getElem?_beEnc (by omega)]
      simp
    · rw [List.getElem?_eq_none (by simp; omega), List.getElem?_eq_none (by simp; omega)]

theorem beDec_append_singleton (s : List Byte) (b : Byte) : beDec (s ++ [b]) = beDec s * 256 + b.toNat := by
  simp [beDec]

/-- A string of n bytes codes a number below 256^n. -/
theorem beDec_lt (s : List Byte) : beDec s < 256 ^ s.length := by
  induction s using List.reverseRecOn with
  | nil => simp [beDec]
  | append_singleton s b ih =>
    rw [beDec_append_singleton, List.length_append, List.length_singleton, Nat.pow_succ]
    have := b.isLt
    omega

/-- Decoding a big-endian code gives the number modulo 256^n. -/
theorem beDec_beEnc (n : Nat) : ∀ v, beDec (beEnc n v) = v % 256 ^ n := by
  induction n with
  | zero => intro v; simp [beEnc, beDec, Nat.mod_one]
  | succ n ih =>
    intro v
    rw [beEnc_succ, beDec_append_singleton, ih, Nat.pow_succ, BitVec.toNat_ofNat, Nat.mul_comm (256 ^ n),
      Nat.mod_mul]
    omega

/-- Encoding what was decoded from n bytes gives the bytes back. -/
theorem beEnc_beDec (s : List Byte) : beEnc s.length (beDec s) = s := by
  induction s using List.reverseRecOn with
  | nil => simp [beEnc]
  | append_singleton s b ih =>
    have hb := b.isLt
    rw [List.length_append, List.length_singleton, beEnc_succ, beDec_append_singleton]
    have h1 : (beDec s * 256 + b.toNat) / 256 = beDec s := by omega
    have h2 : BitVec.ofNat 8 (beDec s * 256 + b.toNat) = b := by
      apply BitVec.eq_of_toNat_eq
      rw [BitVec.toNat_ofNat]
      omega
    rw [h1, h2, ih]

@[simp] theorem length_slice (s : List Byte) (i n : Nat) : (slice s i n).length = min n (s.length - i) := by
  simp [slice]

theorem slice_append_left (a b : List Byte) (i n : Nat) (h : i + n ≤ a.length) : slice (a ++ b) i n = slice a i n := by
  rw [slice, slice, List.drop_append_of_le_length (by omega), List.take_append_of_le_length (by simp; omega)]

theorem slice_append_right (a b : List Byte) (i n : Nat) (h : a.length ≤ i) :
    slice (a ++ b) i n = slice b (i - a.length) n := by
  rw [slice, slice, List.drop_append, List.drop_eq_nil_of_le h, List.nil_append]

theorem slice_all (a : List Byte) (n : Nat) (h : n = a.length) : slice a 0 n = a := by
  subst h; simp [slice]

/-- Overwriting inside a string keeps its length. -/
theorem length_splice (s m : List Byte) (i : Nat) (h : i + m.length ≤ s.length) :
    (splice s i m).length = s.length := by
  simp only [splice, List.length_append, List.length_take, List.length_drop]
  omega

@[simp] theorem splice_nil (s : List Byte) (i : Nat) : splice s i [] = s := by simp [splice]

/-- Overwriting the zeros that follow `p`. -/
theorem splice_padded (p m : List Byte) (n : Nat) :
    splice (p ++ zeros n) p.length m = p ++ m ++ zeros (n - m.length) := by
  have e : p.length + m.length - p.length = m.length := by omega
  simp [splice, zeros, List.drop_append, e]

end Sys2Proof.Machine
end

