-- ==== Sys2Proof/Laws/Streamer.lean ====
section
/-! SUPPORT. What the streamer computes: a context is packed from its chaining value, its pending bytes and its counter, and
Absorb's one specification says what it makes of them; lengths and widths of the digest. -/

namespace Sys2Proof.Machine

theorem block_pos (F : Family) : 0 < F.block := by cases F <;> decide

theorem digLen_eq (F : Family) : F.digLen = 8 * F.wordBytes := by cases F <;> rfl

theorem wordBits_eq (F : Family) : F.wordBits = 8 * F.wordBytes := by cases F <;> rfl

theorem digLen_lt_block (F : Family) : F.digLen < F.block := by cases F <;> decide

theorem lenLen_lt_block (F : Family) : F.lenLen + 1 < F.block := by cases F <;> decide

theorem block_dvd_counter (F : Family) : F.block ∣ 2 ^ Config.ctrBits := by
  cases F
  · exact ⟨2 ^ 58, by norm_num [Family.block]⟩
  · exact ⟨2 ^ 57, by norm_num [Family.block]⟩

/-! ### Compressing blocks -/

/-- Compressing j + k blocks is compressing j and then the next k. -/
theorem compressBlocks_add (P : Prims) (F : Family) (j k : Nat) : ∀ (st : Words 64) (m : List Byte),
    compressBlocks P F (j + k) st m = compressBlocks P F k (compressBlocks P F j st m) (m.drop (j * F.block)) := by
  induction j with
  | zero => intro st m; simp [compressBlocks]
  | succ j ih =>
    intro st m
    rw [Nat.succ_add, compressBlocks, compressBlocks, ih, List.drop_drop]
    congr 2
    rw [Nat.succ_mul, Nat.add_comm]

/-- Only the first k blocks are read. -/
theorem compressBlocks_append (P : Prims) (F : Family) (k : Nat) : ∀ (st : Words 64) (m r : List Byte),
    k * F.block ≤ m.length → compressBlocks P F k st (m ++ r) = compressBlocks P F k st m := by
  induction k with
  | zero => intro st m r _; rfl
  | succ k ih =>
    intro st m r h
    rw [Nat.succ_mul] at h
    rw [compressBlocks, compressBlocks, List.take_append_of_le_length (by omega),
      List.drop_append_of_le_length (by omega), ih _ _ _ (by simp; omega)]

/-! ### Contexts -/

/-- The context with chaining value `st`, pending bytes `p` and counter `tl`. -/
def pack (F : Family) (st : Words 64) (p : List Byte) (tl : Counter) : DigestCtx :=
  { state := st, buf := p ++ zeros (F.block - p.length), bl := p.length, tl := tl }

theorem initDC_eq_pack (P : Prims) (F : Family) : initDC P F = pack F (iv P F) [] 0 := by
  simp [initDC, pack]

/-- A context that meets the invariant is packed from its parts. -/
theorem DigestCtx.Inv.eq_pack {F : Family} {dc : DigestCtx} (h : dc.Inv F) :
    dc = pack F dc.state (dc.buf.take dc.bl) dc.tl := by
  have hl : (dc.buf.take dc.bl).length = dc.bl := by
    rw [List.length_take, h.bufLen]; have := h.blLt; omega
  have hz : dc.buf.drop dc.bl = zeros (F.block - dc.bl) := by
    rw [zeros, List.eq_replicate_iff]
    exact ⟨by rw [List.length_drop, h.bufLen], h.tailZero⟩
  obtain ⟨st, buf, bl, tl⟩ := dc
  simp only [pack, DigestCtx.mk.injEq, true_and, and_true] at *
  exact ⟨by rw [hl, ← hz, List.take_append_drop], hl.symm⟩

/-- A packed context meets the invariant when its words fit and its pending bytes are less than a block. -/
theorem pack_inv {F : Family} {st : Words 64} {p : List Byte} {tl : Counter} (hw : wordsFit F st)
    (hp : p.length < F.block) : (pack F st p tl).Inv F := by
  refine ⟨hw, ?_, hp, fun b hb => ?_⟩
  · simp only [pack, List.length_append, length_zeros]; omega
  · simp only [pack, List.drop_append_of_le_length (Nat.le_refl _), List.drop_length, List.nil_append] at hb
    exact List.eq_of_mem_replicate hb

/-- The specification of Absorb (R142): the pending bytes followed by the message are cut into whole blocks,
which are compressed, and the rest stays pending. -/
theorem absorb_pack (P : Prims) (F : Family) (st : Words 64) (p m : List Byte) (tl : Counter)
    (hp : p.length < F.block) :
    absorb P F (pack F st p tl) m =
      pack F (compressBlocks P F ((p ++ m).length / F.block) st (p ++ m))
        ((p ++ m).drop ((p ++ m).length / F.block * F.block))
        (tl + BitVec.ofNat Config.ctrBits m.length) := by
  have hB := block_pos F
  -- the tail of `r` appended to pending bytes `q` that no block was completed from
  have tail : ∀ (st' : Words 64) (r : List Byte) (q : List Byte) (hq : q = [] ∨ (q ++ r).length < F.block),
      ({ state := compressBlocks P F (r.length / F.block) st' r
         buf := splice (q ++ zeros (F.block - q.length)) q.length (r.drop (r.length / F.block * F.block))
         bl := q.length + (r.drop (r.length / F.block * F.block)).length
         tl := tl + BitVec.ofNat Config.ctrBits m.length } : DigestCtx) =
      pack F (compressBlocks P F ((q ++ r).length / F.block) st' (q ++ r))
        ((q ++ r).drop ((q ++ r).length / F.block * F.block)) (tl + BitVec.ofNat Config.ctrBits m.length) := by
    intro st' r q hq
    have hmod := Nat.mod_lt r.length hB
    have hdm := Nat.div_add_mod' r.length F.block
    have hlen : (r.drop (r.length / F.block * F.block)).length = r.length % F.block := by
      rw [List.length_drop]; omega
    rcases hq with rfl | hq
    · have h0 := splice_padded [] (r.drop (r.length / F.block * F.block)) F.block
      simp only [List.nil_append, List.length_nil] at h0
      simp [pack, h0]
    · have hq' : q.length + r.length < F.block := by simpa using hq
      have hr : r.length / F.block = 0 := Nat.div_eq_of_lt (by omega)
      have hqr : (q ++ r).length / F.block = 0 := Nat.div_eq_of_lt hq
      rw [hr, hqr]
      simp only [Nat.zero_mul, List.drop_zero, compressBlocks, pack, List.length_append, DigestCtx.mk.injEq, true_and,
        and_true]
      rw [splice_padded _ _ _, Nat.sub_sub]
  by_cases h0 : p = []
  · subst h0
    have := tail st m [] (.inl rfl)
    simpa [absorb, topUp, pack] using this
  · have hpl : p.length ≠ 0 := by simpa using h0
    have hl : (pack F st p tl).bl = p.length := rfl
    by_cases hfull : F.block - p.length ≤ m.length
    · -- the buffer is completed, compressed and cleared
      have ht : min m.length (F.block - p.length) = F.block - p.length := by omega
      have hsum : p.length + (F.block - p.length) = F.block := by omega
      have hbuf : splice (p ++ zeros (F.block - p.length)) p.length (m.take (F.block - p.length))
          = p ++ m.take (F.block - p.length) := by
        rw [splice_padded _ _ _]
        simp [hfull, zeros]
      have hdiv : (p ++ m).length / F.block = (m.drop (F.block - p.length)).length / F.block + 1 := by
        rw [← Nat.add_div_right _ hB]
        congr 1
        simp only [List.length_append, List.length_drop]; omega
      have hdrop : (p ++ m).drop F.block = m.drop (F.block - p.length) := by
        rw [List.drop_append, List.drop_eq_nil_of_le (by omega), List.nil_append]
      have htake : (p ++ m).take F.block = p ++ m.take (F.block - p.length) := by
        rw [List.take_append, List.take_of_length_le (by omega)]
      have := tail (compress P F st (p ++ m.take (F.block - p.length))) (m.drop (F.block - p.length)) [] (.inl rfl)
      simp only [List.nil_append, List.length_nil, Nat.sub_zero] at this
      simp only [absorb, topUp, hl, hpl, if_false, ht, hsum, if_true]
      simp only [pack] at this ⊢
      rw [hbuf, this, hdiv, compressBlocks, htake, hdrop, Nat.add_mul, Nat.one_mul, Nat.add_comm _ F.block,
        ← List.drop_drop, hdrop]
    · -- the message fits in the buffer
      have ht : min m.length (F.block - p.length) = m.length := by omega
      have hsum : p.length + m.length ≠ F.block := by omega
      have hqr : (p ++ m).length / F.block = 0 := Nat.div_eq_of_lt (by simp; omega)
      rw [hqr]
      simp only [absorb, topUp, hl, hpl, if_false, ht, hsum, List.take_length, List.drop_length]
      simp only [pack, List.length_nil, Nat.zero_div, compressBlocks, Nat.zero_mul, List.drop_zero, Nat.add_zero,
        List.length_append, DigestCtx.mk.injEq, true_and, and_true]
      rw [splice_padded, splice_nil, Nat.sub_sub]

/-! ### Words that fit, lengths -/

/-- The chaining value of a compression fits its family (R41). -/
theorem compress_fits (P : Prims) (F : Family) (st : Words 64) (b : List Byte) : wordsFit F (compress P F st b) := by
  cases F with
  | f256 =>
    intro w hw
    simp only [compress, Words.map, Words.toList, List.mem_cons, List.not_mem_nil, or_false] at hw
    rcases hw with h | h | h | h | h | h | h | h <;> subst h <;>
      simp only [BitVec.toNat_setWidth, Family.wordBits] <;>
      exact Nat.lt_of_le_of_lt (Nat.mod_le _ _) (BitVec.isLt _)
  | f512 => exact fun w _ => w.isLt

theorem iv_fits (P : Prims) (F : Family) : wordsFit F (iv P F) := by
  cases F with
  | f256 =>
    intro w hw
    simp only [iv, Words.map, Words.toList, List.mem_cons, List.not_mem_nil, or_false] at hw
    rcases hw with h | h | h | h | h | h | h | h <;> subst h <;>
      simp only [BitVec.toNat_setWidth, Family.wordBits] <;>
      exact Nat.lt_of_le_of_lt (Nat.mod_le _ _) (BitVec.isLt _)
  | f512 => exact fun w _ => w.isLt

theorem compressBlocks_fits (P : Prims) (F : Family) (k : Nat) : ∀ (st : Words 64) (m : List Byte),
    wordsFit F st → wordsFit F (compressBlocks P F k st m) := by
  induction k with
  | zero => exact fun st m h => h
  | succ k ih => exact fun st m _ => ih _ _ (compress_fits P F st _)

theorem finishState_fits (P : Prims) (F : Family) (dc : DigestCtx) : wordsFit F (finishState P F dc) := by
  unfold finishState finalBlocks
  simp only
  split <;> exact compress_fits P F _ _

@[simp] theorem length_ser (F : Family) (st : Words 64) : (ser F st).length = F.digLen := by
  cases F <;> simp [ser, Words.toList, Family.digLen, Family.wordBytes]

@[simp] theorem length_digest (P : Prims) (F : Family) (m : List Byte) : (digest P F m).length = F.digLen := by
  simp [digest]

@[simp] theorem length_lenField (F : Family) (tl : Counter) : (lenField F tl).length = F.lenLen := by
  simp [lenField]

theorem length_image (F : Family) (dc : DigestCtx) (ph : Phase) (h : dc.buf.length = F.block) :
    (image F dc ph).length = F.imageSize := by
  simp [image, h, Family.imageSize, digLen_eq, Nat.add_assoc]

/-- Absorb from a context that meets the invariant (R144, R145): the blocks it compresses, the bytes left pending, the
counter, and the invariant again. -/
theorem absorb_spec (P : Prims) {F : Family} {dc : DigestCtx} (h : dc.Inv F) (m : List Byte) :
    (absorb P F dc m).state =
      compressBlocks P F ((dc.bl + m.length) / F.block) dc.state (dc.buf.take dc.bl ++ m) ∧
    (absorb P F dc m).bl = (dc.bl + m.length) % F.block ∧
    (absorb P F dc m).tl = dc.tl + BitVec.ofNat Config.ctrBits m.length ∧ (absorb P F dc m).Inv F := by
  have hl : (dc.buf.take dc.bl).length = dc.bl := by
    rw [List.length_take, h.bufLen]; have := h.blLt; omega
  have hrest : ∀ n, ((dc.buf.take dc.bl ++ m).drop (n / F.block * F.block)).length = dc.bl + m.length - n / F.block * F.block := by
    intro n; simp [hl]
  have hmod : dc.bl + m.length - (dc.bl + m.length) / F.block * F.block = (dc.bl + m.length) % F.block := by
    rw [Nat.mul_comm, ← Nat.mod_def]
  have e := absorb_pack P F dc.state (dc.buf.take dc.bl) m dc.tl (by rw [hl]; exact h.blLt)
  rw [← h.eq_pack, List.length_append, hl] at e
  rw [e]
  refine ⟨rfl, (hrest _).trans hmod, rfl, pack_inv (compressBlocks_fits _ _ _ _ _ h.width) ?_⟩
  rw [hrest, hmod]
  exact Nat.mod_lt _ (block_pos F)

theorem initDC_inv (P : Prims) (F : Family) : (initDC P F).Inv F := by
  rw [initDC_eq_pack]
  exact pack_inv (iv_fits P F) (block_pos F)

theorem zero_inv (F : Family) : (DigestCtx.zero F).Inv F := by
  refine ⟨fun w hw => ?_, by simp [DigestCtx.zero], block_pos F, fun b hb => ?_⟩
  · simp only [DigestCtx.zero, Words.zero, Words.ofFn, Words.toList, List.mem_cons, List.not_mem_nil, or_false, or_self] at hw
    subst hw
    exact Nat.pos_of_ne_zero (by simp)
  · exact List.eq_of_mem_replicate (List.mem_of_mem_drop hb)

theorem finalDC_inv {F : Family} {st : Words 64} (h : wordsFit F st) (dc : DigestCtx) : (finalDC F dc st).Inv F :=
  ⟨h, by simp [finalDC], block_pos F, fun _ hb => List.eq_of_mem_replicate (List.mem_of_mem_drop hb)⟩

/-- The invariant ties the pending count to the counter, and Absorb keeps the tie (R47 (d)): BLOCK divides
2^CTR_BITS, so the counter's wrap does no harm. -/
theorem absorb_bl_eq (P : Prims) {F : Family} {dc : DigestCtx} (h : dc.Inv F) (m : List Byte)
    (e : dc.bl = dc.tl.toNat % F.block) : (absorb P F dc m).bl = (absorb P F dc m).tl.toNat % F.block := by
  obtain ⟨-, hb, ht, -⟩ := absorb_spec P h m
  rw [hb, ht, BitVec.toNat_add, BitVec.toNat_ofNat, Nat.mod_mod_of_dvd _ (block_dvd_counter F), Nat.add_mod,
    e, Nat.mod_mod, Nat.add_mod dc.tl.toNat, Nat.mod_mod_of_dvd _ (block_dvd_counter F)]

end Sys2Proof.Machine
end

