-- ==== Sys2Proof/Laws/Agents.lean ====
section
/-! SUPPORT. One lemma per operation of the agents: what a turn is, what a racing access and a reset can do, and what
settling the raced bytes leaves alone. -/

namespace Sys2Proof.Machine

/-! ### Whose turn it is -/

/-- A host turn, scheduled or by default, is the host's next statement. -/
theorem step_of_hostNext {s : State} {k : Nat} {h : HostAgent} {st : HostStmt} {rest : List HostStmt}
    {turns : List Turn} (n : s.hostNext k h st rest turns) :
    step s = State.runStmt { s with schedule := turns } k h rest st := by
  obtain ⟨e | ⟨e, rfl, hp, hr⟩, hk, hprog⟩ := n
  · simp [step, e, State.hostTurn, hk, hprog]
  · have hs : s = { s with schedule := [] } := by rw [← e]
    rw [← hs]
    simp [step, e, hp, hr, State.hostTurn, hk, hprog]

/-- An engine turn with PEND = 1 runs the latched word. -/
theorem step_of_engineNext {s : State} {turns : List Turn} (n : s.engineNext turns) (hp : s.pend = true) :
    step s = mapNext State.settleRaces (State.runPending { s with schedule := turns }) := by
  rcases n with e | ⟨e, rfl, -⟩
  · simp [step, e, State.engineTurn, hp]
  · have hs : s = { s with schedule := [] } := by rw [← e]
    simp only [step, e]
    rw [if_pos hp, ← hs]
    simp [State.engineTurn, hp]

/-! ### Checks -/

/-- Checks in two parts pass when both parts do. -/
theorem firstFailure_append_none {a b : List (Option Result)} (ha : firstFailure a = none)
    (hb : firstFailure b = none) : firstFailure (a ++ b) = none := by
  rw [firstFailure_eq_none] at *
  intro c hc
  rcases List.mem_append.1 hc with h | h
  · exact ha c h
  · exact hb c h

theorem chkCtx_of_names {s : State} {h : Nat} {k : Kind} {F : Family} (n : s.names h k F) : s.chkCtx h k = none :=
  chkCtx_eq_none.2 ⟨n.1, n.2.1, n.2.2.1⟩

theorem chkFam_of_names {s : State} {h : Nat} {k : Kind} {F : Family} (n : s.names h k F) : s.chkFam h F = none :=
  chkFam_eq_none.2 n.2.2.2

/-! ### Settling the raced bytes -/

/-- Settling changes host memory and the free-value counter, and a byte of memory only at a raced address. -/
theorem havoc_spec (as : List Nat) : ∀ s : State, ∃ m n, s.havoc as = { s with mem := m, freeCount := n } ∧
    (Memory.wf s.mem → Memory.wf m) ∧
    (∀ x, x ∉ as → Memory.read m x = Memory.read s.mem x) ∧ (∀ c ∈ m, c ∈ s.mem ∨ c.1 ∈ as) := by
  induction as with
  | nil => exact fun s => ⟨s.mem, s.freeCount, rfl, id, fun _ _ => rfl, fun _ hc => .inl hc⟩
  | cons a as ih =>
    intro s
    obtain ⟨m, n, e, hw, hr, hm⟩ := ih
      { s with mem := Memory.put s.mem a (Config.freeByte s.freeCount), freeCount := s.freeCount + 1 }
    refine ⟨m, n, e, fun h => hw (Memory.put_wf _ h _ _), fun x hx => ?_, fun c hc => ?_⟩
    · rw [List.mem_cons, not_or] at hx
      rw [hr x hx.2, Memory.read_put_ne _ _ _ _ hx.1]
    · rcases hm c hc with h | h
      · rcases Memory.mem_put _ _ _ h with h | ⟨rfl, -⟩
        · exact .inl h
        · exact .inr (by simp)
      · exact .inr (List.mem_cons_of_mem _ h)

/-- Settling changes nothing when no host raced. -/
theorem settleRaces_of_raced_nil {s : State} (h : s.raced = []) : s.settleRaces = s := by
  simp only [State.settleRaces, h, State.havoc]
  rw [← h]

/-! ### Host accesses -/

@[simp] theorem mem_addFault (s : State) (f g : Fault) : g ∈ (s.addFault f).faults ↔ g = f ∨ g ∈ s.faults := by
  unfold State.addFault
  split
  · constructor
    · exact .inr
    · rintro (rfl | h) <;> assumption
  · simp

/-- Adding a fault changes the fault set only. -/
theorem addFault_spec (s : State) (f : Fault) : ∃ fs, s.addFault f = { s with faults := fs } := by
  unfold State.addFault
  split
  · exact ⟨s.faults, rfl⟩
  · exact ⟨_, rfl⟩

/-- A race needs a pending command and an address of host memory (R307). -/
theorem inDmaRange_true {s : State} {a : Nat} (h : s.inDmaRange a = true) : s.pend = true ∧ a < Config.memSize := by
  unfold State.inDmaRange at h
  rw [Bool.and_eq_true] at h
  refine ⟨h.1, ?_⟩
  have h2 := h.2
  split at h2
  · simp only [Bool.and_eq_true, decide_eq_true_eq] at h2
    exact h2.2
  · exact absurd h2 (by simp)

/-- A host read changes the fault set and the free-value counter at most. -/
theorem hostLoad_spec (s : State) (a : Nat) : ∃ fs n, (s.hostLoad a).2 = { s with faults := fs, freeCount := n } ∧
    (∀ g, g ∈ fs ↔ g ∈ s.faults ∨ (s.inDmaRange a = true ∧ g = .hazardDmaRange)) := by
  unfold State.hostLoad
  split
  · obtain ⟨fs, e⟩ := addFault_spec s .hazardDmaRange
    refine ⟨fs, _, by rw [e], fun g => ?_⟩
    have := mem_addFault s .hazardDmaRange g
    rw [e] at this
    simp_all [or_comm]
  · exact ⟨s.faults, s.freeCount, rfl, fun g => by simp_all⟩

/-- A host write puts one byte, and in the pending command's range it is also recorded as raced (R307). -/
theorem hostStore_spec (s : State) (a : Nat) (b : Byte) : ∃ fs n v rs, s.hostStore a b =
      { s with faults := fs, freeCount := n, mem := Memory.put s.mem a v, raced := rs } ∧
    (∀ g, g ∈ fs ↔ g ∈ s.faults ∨ (s.inDmaRange a = true ∧ g = .hazardDmaRange)) ∧
    rs = (if s.inDmaRange a then a :: s.raced else s.raced) ∧ (s.inDmaRange a = false → v = b) := by
  unfold State.hostStore
  split
  · obtain ⟨fs, e⟩ := addFault_spec s .hazardDmaRange
    refine ⟨fs, _, _, _, by rw [e], fun g => ?_, rfl, fun h => by simp_all⟩
    have := mem_addFault s .hazardDmaRange g
    rw [e] at this
    simp_all [or_comm]
  · exact ⟨s.faults, s.freeCount, b, s.raced, rfl, fun g => by simp_all, rfl, fun _ => rfl⟩

/-- A byte access that goes on is outside the window and inside host memory. -/
theorem onMemory_eq_next {s t : State} {a : Nat} {k : Host.Outcome State Fault Refusal} (h : s.onMemory a k = .next t) :
    s.inWindow a = false ∧ a < Config.memSize ∧ k = .next t := by
  unfold State.onMemory at h
  split at h
  · cases h
  · split at h
    · cases h
    · exact ⟨by simp_all, by omega, h⟩

/-! ### Reset -/

/-- After a reset every handle reads a free slot (R300). -/
@[simp] theorem resetEngine_slot (s : State) (h : Nat) : s.resetEngine.slot h = Slot.free := by
  cases h with
  | zero => rfl
  | succ k => by_cases hk : k < 4 <;> simp [State.slot, State.reset, hk]

/-- The write range a reset frees belongs to a pending storing command whose checks pass (R301). -/
theorem pendingStore_eq_some {s : State} {a n : Nat} (h : s.pendingStore = some (a, n)) :
    ∃ i, s.pend = true ∧ decode s.lcmd = .ok i ∧ transferDir i = some .write ∧ firstFailure (s.checks i) = none ∧
      a = s.opAddr ∧ n = transferWidth i s.opLen := by
  unfold State.pendingStore at h
  split at h
  · rename_i hp
    split at h
    · rename_i i hd
      split at h
      · rename_i hc
        simp only [Option.some.injEq, Prod.mk.injEq] at h
        exact ⟨i, hp, hd, hc.1, hc.2, h.1.symm, h.2.symm⟩
      · cases h
    · cases h
  · cases h

/-- A reset is the reset of the engine over some memory that differs inside the freed write range only. -/
theorem resetTurn_spec (s : State) : ∃ m n, s.resetTurn = State.resetEngine { s with mem := m, freeCount := n } ∧
    (Memory.wf s.mem → Memory.wf m) ∧
    (m = s.mem ∨ ∃ a k bs, s.pendingStore = some (a, k) ∧ bs.length = k ∧ m = Memory.writeRange s.mem a bs) := by
  unfold State.resetTurn
  split
  · exact ⟨s.mem, s.freeCount, rfl, id, .inl rfl⟩
  · rename_i a k h
    exact ⟨_, _, rfl, fun hw => Memory.writeRange_wf _ _ hw _,
      .inr ⟨a, k, _, h, by simp [freeBytes], rfl⟩⟩

end Sys2Proof.Machine
end

