-- ==== Sys2Proof/Laws/Invariant.lean ====
section
/-! SUPPORT. The parts of the machine's invariant: what a slot write, a parsed image, a storing command and a key derivation
keep. -/

namespace Sys2Proof.Machine

theorem Slot.free_inv : Slot.free.Inv := by
  constructor <;> first | exact zero_inv _ | simp [Slot.free]

/-- Every handle, also one that names no slot, reads a slot that meets the invariant. -/
theorem State.Inv.slot {s : State} (h : s.Inv) (g : Nat) : (s.slot g).Inv := by
  by_cases hr : 1 ≤ g ∧ g ≤ Config.nctx
  · exact h.slots _ ((State.mem_slots_iff s _).2 ⟨g, hr.1, hr.2, rfl⟩)
  · rw [State.slot_out_of_range _ (by omega)]
    exact Slot.free_inv

/-- Writing a slot that meets the invariant keeps it for the bank. -/
theorem setSlot_slots_inv {s : State} (h : ∀ x ∈ s.slots.toList, Slot.Inv x) (g : Nat) {x : Slot} (hx : x.Inv) :
    ∀ y ∈ (s.setSlot g x).slots.toList, Slot.Inv y := by
  intro y hy
  obtain ⟨k, h1, h2, rfl⟩ := (State.mem_slots_iff _ _).1 hy
  by_cases e : k = g
  · subst e
    rwa [State.slot_setSlot_same _ _ h1 h2]
  · rw [State.slot_setSlot_ne _ _ e]
    exact h _ ((State.mem_slots_iff s _).2 ⟨k, h1, h2, rfl⟩)

theorem reset_slots_inv : ∀ x ∈ State.reset.slots.toList, Slot.Inv x := by
  intro x hx
  simp only [State.reset, Vector.toList_replicate, List.mem_replicate] at hx
  rw [hx.2]
  exact Slot.free_inv

/-- A store to a range that may be moved stays inside host memory. -/
theorem writeRange_bound {s : State} (hm : ∀ c ∈ s.mem, c.1 < Config.memSize) {d : Dir} {n : Nat} (h : s.mayMove d n)
    {bs : List Byte} (hb : bs.length = n) : ∀ c ∈ Memory.writeRange s.mem s.opAddr bs, c.1 < Config.memSize := by
  intro c hc
  rcases Memory.mem_writeRange _ _ _ hc with h' | h'
  · exact hm c h'
  · rcases h.1 with h0 | h0 <;> omega

/-! ### Images -/

/-- Each state word of an image is a number of WB bytes (R41). -/
theorem imageState_fits (F : Family) (s : List Byte) : wordsFit F (imageState F s) := by
  have key : ∀ i, (BitVec.ofNat 64 (beDec (slice s (i * F.wordBytes) F.wordBytes))).toNat < 2 ^ F.wordBits := by
    intro i
    have h1 := beDec_lt (slice s (i * F.wordBytes) F.wordBytes)
    have h2 : 256 ^ (slice s (i * F.wordBytes) F.wordBytes).length ≤ 256 ^ F.wordBytes :=
      Nat.pow_le_pow_right (by norm_num) (by simp)
    have h3 : 256 ^ F.wordBytes = 2 ^ F.wordBits := by cases F <;> norm_num [Family.wordBytes, Family.wordBits]
    rw [BitVec.toNat_ofNat]
    exact Nat.lt_of_le_of_lt (Nat.mod_le _ _) (by omega)
  intro w hw
  simp only [imageState, Words.ofFn, Words.toList, List.mem_cons, List.not_mem_nil, or_false] at hw
  rcases hw with rfl | rfl | rfl | rfl | rfl | rfl | rfl | rfl <;> exact key _

/-- What Parse accepts meets the invariant (R47 (d), (e)). -/
theorem parse_inv {F : Family} {s : List Byte} (hs : s.length = F.imageSize) {dc : DigestCtx} {ph : Phase}
    (hp : parse F s = some (dc, ph)) :
    dc.Inv F ∧ ((ph = .active ∧ dc.bl = dc.tl.toNat % F.block) ∨
      (ph = .finalized ∧ dc.bl = 0 ∧ dc.buf = zeros F.block)) := by
  unfold parse at hp
  split at hp
  · rename_i hv
    simp only [Option.some.injEq, Prod.mk.injEq] at hp
    obtain ⟨rfl, rfl⟩ := hp
    simp only [imageValid, Bool.and_eq_true, Bool.or_eq_true, beq_iff_eq, decide_eq_true_eq, List.all_eq_true,
      Bool.not_eq_true', Bool.and_eq_false_imp, bne_eq_false_iff_eq] at hv
    obtain ⟨⟨⟨⟨⟨⟨⟨h1, -⟩, -⟩, h4⟩, h5⟩, h6⟩, h7⟩, h8⟩ := hv
    have hb : (imageBuf F s).length = F.block := by
      simp only [imageBuf, length_slice, hs, Family.imageSize]; omega
    refine ⟨⟨imageState_fits F s, hb, h4, h5⟩, ?_⟩
    rcases h1 with h1 | h1
    · left
      simp only [h1, if_true, true_and, BitVec.toNat_ofNat, Nat.mod_eq_of_lt h8]
      exact h6 h1
    · right
      have h0 := h7 h1
      rw [h0] at h5
      refine ⟨by simp [h1], h0, ?_⟩
      rw [zeros, List.eq_replicate_iff]
      exact ⟨hb, by simpa using h5⟩
  · cases hp

/-! ### Keys -/

@[simp] theorem length_padKey (P : Prims) (F : Family) (K : List Byte) : (padKey P F K).length = F.block := by
  have h : (reduceKey P F K).length ≤ F.block := by
    unfold reduceKey
    split
    · rw [length_digest]; exact (digLen_lt_block F).le
    · omega
  simp only [padKey, List.length_append, length_zeros]
  omega

@[simp] theorem length_innerKey (P : Prims) (F : Family) (K : List Byte) : (innerKey P F K).length = F.block := by
  simp [innerKey]

@[simp] theorem length_outerKey (P : Prims) (F : Family) (K : List Byte) : (outerKey P F K).length = F.block := by
  simp [outerKey]

end Sys2Proof.Machine
end

