-- ==== Sys2Proof/Laws/PerInstr.lean ====
section
/-! SUPPORT. Per-instruction families: every well-formed command's word passes the legality test of its opcode (spec 30 rules
R116, R123). -/

namespace Sys2Proof.Laws

/-- The word `op | F<<8 | h<<16` under the legality mask is its opcode, for an 8-bit opcode, a one-bit family and
an 8-bit handle. -/
theorem packWord_and_legalMask {op F h : Nat} (ho : op < 256) (hF : F < 2) (hh : h < 256) :
    packWord op F h &&& legalMask = BitVec.ofNat 32 op := by
  have e1 : BitVec.ofNat 32 op = (BitVec.ofNat 8 op).setWidth 32 := by
    apply BitVec.eq_of_toNat_eq; simp; omega
  have e2 : BitVec.ofNat 32 F = (BitVec.ofNat 1 F).setWidth 32 := by
    apply BitVec.eq_of_toNat_eq; simp; omega
  have e3 : BitVec.ofNat 32 h = (BitVec.ofNat 8 h).setWidth 32 := by
    apply BitVec.eq_of_toNat_eq; simp; omega
  rw [packWord, e1, e2, e3]
  generalize BitVec.ofNat 8 op = o
  generalize BitVec.ofNat 1 F = f
  generalize BitVec.ofNat 8 h = c
  apply BitVec.eq_of_getLsbD_eq
  intro i hi
  simp only [legalMask]
  interval_cases i <;> simp

theorem code_lt (F : Family) : F.code < 2 := by cases F <;> decide

theorem opcode_lt (i : Instr) : i.opcode < 256 := by cases i <;> simp [Instr.opcode]

theorem familyCode_lt (i : Instr) : (i.family?.map Family.code).getD 0 < 2 := by
  cases h : i.family? with
  | none => simp
  | some F => exact code_lt F

theorem handle_lt {i : Instr} (w : i.WellFormed) : i.handle?.getD 0 < 256 := by
  cases h : i.handle? with
  | none => simp
  | some g => exact w g h

theorem encode_and_legalMask {i : Instr} (w : i.WellFormed) : encode i &&& legalMask = BitVec.ofNat 32 i.opcode :=
  packWord_and_legalMask (opcode_lt i) (familyCode_lt i) (handle_lt w)

/-- What the family says of a command: its word, masked, is its opcode. -/
def EncodeMask.Statement (i : Instr) : Prop :=
  i.WellFormed → encode i &&& legalMask = BitVec.ofNat 32 i.opcode

theorem EncodeMask.ctxsize (F : Family) : EncodeMask.Statement (.ctxsize F) :=
  encode_and_legalMask

theorem EncodeMask.alloc (F : Family) : EncodeMask.Statement (.alloc F) :=
  encode_and_legalMask

theorem EncodeMask.init (F : Family) (h : Nat) : EncodeMask.Statement (.init F h) :=
  encode_and_legalMask

theorem EncodeMask.update (F : Family) (h : Nat) : EncodeMask.Statement (.update F h) :=
  encode_and_legalMask

theorem EncodeMask.finalize (F : Family) (h : Nat) : EncodeMask.Statement (.finalize F h) :=
  encode_and_legalMask

theorem EncodeMask.exportCtx (F : Family) (h : Nat) : EncodeMask.Statement (.exportCtx F h) :=
  encode_and_legalMask

theorem EncodeMask.importCtx (F : Family) (h : Nat) : EncodeMask.Statement (.importCtx F h) :=
  encode_and_legalMask

theorem EncodeMask.cleanup (h : Nat) : EncodeMask.Statement (.cleanup h) :=
  encode_and_legalMask

theorem EncodeMask.hmacInit (F : Family) : EncodeMask.Statement (.hmacInit F) :=
  encode_and_legalMask

theorem EncodeMask.hmacUpdate (F : Family) (h : Nat) : EncodeMask.Statement (.hmacUpdate F h) :=
  encode_and_legalMask

theorem EncodeMask.hmacFinalize (F : Family) (h : Nat) : EncodeMask.Statement (.hmacFinalize F h) :=
  encode_and_legalMask

theorem EncodeMask.hmacCleanup (h : Nat) : EncodeMask.Statement (.hmacCleanup h) :=
  encode_and_legalMask

end Sys2Proof.Laws
end

