-- ==== Sys2Proof/Tests/Slice0.lean ====
section
/-! SUPPORT. The model's own tests: what WellFormed refuses, words written out from the encoding, the vectors of spec 95, and
for every statement with hypotheses a concrete state and operands that meet them. -/

namespace Sys2Proof.Tests

open Sys2Proof.Machine

-- Each `decide +kernel` waits for the theorems before it; elaborating in order keeps the waiting threads few.
set_option Elab.async false

/-! ### What WellFormed refuses -/

theorem test_wellFormed_handle_256 : ¬ (Instr.update .f256 256).WellFormed := by decide
theorem test_wellFormed_handle_255 : (Instr.update .f256 255).WellFormed := by decide
theorem test_wellFormed_byte_read : (HostStmt.winRead 0x01 1).wellFormed = false := by decide
theorem test_wellFormed_misaligned_read : (HostStmt.winRead 0x02 4).wellFormed = false := by decide
theorem test_wellFormed_half_write : (HostStmt.winWrite 0x08 2 0#32).wellFormed = false := by decide
theorem test_wellFormed_write_past_window : (HostStmt.winWrite 0x100 4 0#32).wellFormed = false := by decide
theorem test_wellFormed_load_above_memory : (HostStmt.load (2 ^ 32)).wellFormed = false := by decide
theorem test_wellFormed_store_above_memory : (HostStmt.store (2 ^ 32) 0#8).wellFormed = false := by decide
theorem test_wellFormed_expect_16 : (HostStmt.expect 16).wellFormed = false := by decide
theorem test_wellFormed_kept_command : (HostStmt.cmdKept (.cleanup 256)).wellFormed = false := by decide

/-! ### Words of 95 section 2.1, bit 31 first: RSV1, CTX, RSV0, FAMILY, OPCODE -/

theorem test_decode_ctxsize : decode 0b00000000_00000000_0000000_1_00000001#32 = .ok (.ctxsize .f512) := by decide
theorem test_decode_ctxsize_ignores_ctx : decode 0x00050001#32 = .ok (.ctxsize .f256) := by decide
theorem test_decode_alloc : decode 0b00000000_00000000_0000000_0_00000010#32 = .ok (.alloc .f256) := by decide
theorem test_decode_init : decode 0b00000000_11111111_0000000_0_00000011#32 = .ok (.init .f256 255) := by decide
theorem test_decode_update : decode 0b00000000_00000010_0000000_1_00000100#32 = .ok (.update .f512 2) := by decide
theorem test_decode_finalize : decode 0b00000000_00000001_0000000_0_00000101#32 = .ok (.finalize .f256 1) := by decide
theorem test_decode_export : decode 0b00000000_00000001_0000000_1_00000110#32 = .ok (.exportCtx .f512 1) := by decide
theorem test_decode_import : decode 0b00000000_00000010_0000000_1_00000111#32 = .ok (.importCtx .f512 2) := by decide
theorem test_decode_cleanup : decode 0b00000000_00000011_0000000_1_00001000#32 = .ok (.cleanup 3) := by decide
theorem test_decode_hmac_init : decode 0b00000000_00000111_0000000_0_00001001#32 = .ok (.hmacInit .f256) := by decide
theorem test_decode_hmac_update : decode 0b00000000_00000001_0000000_0_00001010#32 = .ok (.hmacUpdate .f256 1) := by
  decide
theorem test_decode_hmac_finalize : decode 0b00000000_00000001_0000000_1_00001011#32 = .ok (.hmacFinalize .f512 1) := by
  decide
theorem test_decode_hmac_cleanup : decode 0b00000000_00000001_0000000_0_00001100#32 = .ok (.hmacCleanup 1) := by decide

theorem test_decode_illegal_words :
    [0x00000000#32, 0x0000000D#32, 0x000000FF#32].map decode = List.replicate 3 (.error .reservedOpcode) ∧
    [0x00000200#32, 0x00010203#32, 0x00018003#32, 0x01010003#32, 0x80000001#32].map decode =
      List.replicate 5 (.error .reservedBits) := by decide

/-- 30 R120's syntax. -/
theorem test_asm_text : (Instr.hmacUpdate .f512 2).asmText = "HMAC_UPDATE.512 c2" ∧
    (Instr.cleanup 3).asmText = "CLEANUP c3" ∧ (Instr.alloc .f256).asmText = "ALLOC.256" := by decide +kernel

/-! ### Small states -/

/-- Bytes of a number written in hex, first byte first. -/
def bytes (n v : Nat) : List Byte := beEnc n v

/-- Reset, with the reference `Compress` and `IV` of spec 93 section R, as the vectors assume. -/
def base : State := { State.reset with plat := { Config.platform with unit := .fips } }

/-- Host memory with "abc" at 0x1000. -/
def abcMem : Memory := [(0x1000, 0x61), (0x1001, 0x62), (0x1002, 0x63)]

/-- `s` with the latched arguments `a` and `n`. -/
def args (s : State) (a n : Word) : State := { s with laddr := a, llen := n }

def uninitSlot (F : Family) : Slot :=
  { kind := .digest, fam := F, phase := .uninit, dc := .zero F, oc := .zero F }

/-- The context after "abc" (95 section 1.1: bl 3, tl 3, no Compress call). -/
def abcCtx (F : Family) : DigestCtx :=
  { state := iv Fips.prims F, buf := [0x61, 0x62, 0x63] ++ zeros (F.block - 3), bl := 3, tl := 3 }

def activeSlot (F : Family) : Slot :=
  { kind := .digest, fam := F, phase := .active, dc := abcCtx F, oc := .zero F }

/-- The context after FINALIZE of "abc" (95 section 2.6). -/
def finCtx : DigestCtx :=
  { state := ⟨0xba7816bf, 0x8f01cfea, 0x414140de, 0x5dae2223, 0xb00361a3, 0x96177a9c, 0xb410ff61, 0xf20015ad⟩
    buf := zeros 64, bl := 0, tl := 3 }

def finSlot : Slot := { kind := .digest, fam := .f256, phase := .finalized, dc := finCtx, oc := .zero .f256 }

/-- TC1's slot after HMAC_INIT (95 section 2.9). -/
def macSlot : Slot :=
  { kind := .hmac, fam := .f256, phase := .active
    dc := { state := ⟨0x2bb21804, 0x23b95bf9, 0xb4e8258c, 0xfab5e654, 0x11f2921e, 0x4feb78ee, 0x9890e5fe, 0x64b78036⟩
            buf := zeros 64, bl := 0, tl := 64 }
    oc := { state := ⟨0x27e7739f, 0xd9562583, 0x56d666e2, 0x5f810de8, 0xec5e4f8a, 0x553d4fb8, 0x3cff20ba, 0x10234b40⟩
            buf := zeros 64, bl := 0, tl := 64 } }

/-- TC1's slot after HMAC_UPDATE "Hi There". -/
def macFedSlot : Slot :=
  { macSlot with dc := { macSlot.dc with buf := bytes 8 0x4869205468657265 ++ zeros 56, bl := 8, tl := 72 } }

def macFinSlot : Slot := { macSlot with phase := .finalized }

/-- Slot 1 holds `x`; "abc" is in memory; the latched arguments are `a` and `n`. -/
def one (x : Slot) (a n : Word) : State := args (State.setSlot { base with mem := abcMem } 1 x) a n

/-- Every slot in use. -/
def allUsed : State := { base with slots := Vector.replicate 4 (uninitSlot .f256) }

/-- The state an outcome ends in. -/
def after : Host.Outcome State Fault Refusal → State
  | .next t => t
  | .fault _ => State.reset
  | .refused _ => State.reset

def isNext : Host.Outcome State Fault Refusal → Bool
  | .next _ => true
  | .fault _ => false
  | .refused _ => false

theorem eq_next_after {o : Host.Outcome State Fault Refusal} (h : isNext o = true) : o = .next (after o) := by
  cases o
  · rfl
  · cases h
  · cases h

/-- Why an outcome stops, as a fault or as a refusal. -/
def stopOf : Host.Outcome State Fault Refusal → Option (Fault ⊕ Refusal)
  | .next _ => none
  | .fault f => some (.inl f)
  | .refused r => some (.inr r)

/-- Whether an outcome is a next state with result `r` and RDATA `d` whose slots and memory are those of `s`. -/
def only (s : State) (r : Result) (d : Word) (o : Host.Outcome State Fault Refusal) : Bool :=
  isNext o && decide ((after o).result = r ∧ (after o).rdata = d ∧ (after o).pend = false ∧ (after o).slots = s.slots ∧
    (after o).mem = s.mem)

/-! ### The vectors of spec 95, one step each -/

/-- L-1. -/
theorem test_ctxsize : only base .ok 0x74 (exec (.ctxsize .f256) base) = true ∧
    only base .ok 0xD4 (exec (.ctxsize .f512) base) = true := by decide +kernel

/-- L-3: the lowest free slot. -/
theorem test_alloc_lowest : (after (exec (.alloc .f512) (allUsed.setSlot 3 Slot.free))).rdata = 3 ∧
    (after (exec (.alloc .f512) (allUsed.setSlot 3 Slot.free))).slot 3 = uninitSlot .f512 := by decide +kernel
/-- L-2. -/
theorem test_alloc_full : only allUsed .outOfMemory 0 (exec (.alloc .f256) allUsed) = true := by decide +kernel

/-- V-2. -/
theorem test_init_finalized : (after (exec (.init .f256 1) (one finSlot 0 0))).slot 1 =
    { activeSlot .f256 with dc := { abcCtx .f256 with buf := zeros 64, bl := 0, tl := 0 } } := by decide +kernel
/-- V-22. -/
theorem test_init_hmac_slot :
    only (one macSlot 0 0) .invalidArguments 0 (exec (.init .f256 1) (one macSlot 0 0)) = true := by decide +kernel

/-- V-5, on a second message: "abc" again after "abc". -/
theorem test_update_abc : ((after (exec (.update .f256 1) (one (activeSlot .f256) 0x1000 3))).slot 1).dc =
    { abcCtx .f256 with buf := bytes 6 0x616263616263 ++ zeros 58, bl := 6, tl := 6 } := by decide +kernel
/-- V-6, V-7, V-8, V-9, V-12, V-14, V-15. -/
theorem test_update_checks :
    let s := fun a n => one (activeSlot .f256) a n
    only (s 0 0) .ok 0 (exec (.update .f256 1) (s 0 0)) = true ∧
    only (s 0 5) .invalidArguments 0 (exec (.update .f256 1) (s 0 5)) = true ∧
    only (s 0xFFFFFFF0 0x10) .busError 0 (exec (.update .f256 1) (s 0xFFFFFFF0 0x10)) = true ∧
    only (s 0xFFFFFFF0 0x11) .invalidArguments 0 (exec (.update .f256 1) (s 0xFFFFFFF0 0x11)) = true ∧
    only (one finSlot 0 5) .invalidState 0 (exec (.update .f256 1) (one finSlot 0 5)) = true ∧
    only (s 0x1000 3) .invalidArguments 0 (exec (.update .f256 5) (s 0x1000 3)) = true ∧
    only (s 0x1000 3) .invalidArguments 0 (exec (.update .f256 0) (s 0x1000 3)) = true := by decide +kernel

/-- V-16. -/
theorem test_finalize_abc :
    Memory.readRange (after (exec (.finalize .f256 1) (one (activeSlot .f256) 0x2000 0))).mem 0x2000 32 =
      bytes 32 0xba7816bf8f01cfea414140de5dae2223b00361a396177a9cb410ff61f20015ad ∧
    (after (exec (.finalize .f256 1) (one (activeSlot .f256) 0x2000 0))).slot 1 = finSlot := by decide +kernel
/-- V-17, V-18, V-19, V-20. -/
theorem test_finalize_checks :
    let s := fun a => one (activeSlot .f256) a 0
    only (one finSlot 0x2100 0) .invalidState 0 (exec (.finalize .f256 1) (one finSlot 0x2100 0)) = true ∧
    only (s 0) .invalidArguments 0 (exec (.finalize .f256 1) (s 0)) = true ∧
    only (s 0xFFFFFFF0) .invalidArguments 0 (exec (.finalize .f256 1) (s 0xFFFFFFF0)) = true ∧
    only (s 0x3FF0) .busError 0 (exec (.finalize .f256 1) (s 0x3FF0)) = true := by decide +kernel

/-- `img256_abc` (95 section 2.8). -/
def img256abc : List Byte :=
  bytes 32 0x6a09e667bb67ae853c6ef372a54ff53a510e527f9b05688c1f83d9ab5be0cd19 ++ bytes 3 0x616263 ++ zeros 61
    ++ bytes 20 0x0000000000000003000000000000000301000000

/-- The export of "abc", and E-4. -/
theorem test_export :
    Memory.readRange (after (exec (.exportCtx .f256 1) (one (activeSlot .f256) 0x3000 0))).mem 0x3000 116 = img256abc ∧
    only (one (activeSlot .f256) 0x3F90 0) .busError 0 (exec (.exportCtx .f256 1) (one (activeSlot .f256) 0x3F90 0)) =
      true := by decide +kernel
/-- E-2: the finalised image, and E-1, E-3. -/
theorem test_export_finalized :
    Memory.readRange (after (exec (.exportCtx .f256 1) (one finSlot 0x3000 0))).mem 0x3000 116 =
      bytes 32 0xba7816bf8f01cfea414140de5dae2223b00361a396177a9cb410ff61f20015ad ++ zeros 64
        ++ bytes 20 0x0000000000000000000000000000000302000000 ∧
    only (one (uninitSlot .f256) 0x3000 0) .invalidState 0
      (exec (.exportCtx .f256 1) (one (uninitSlot .f256) 0x3000 0)) = true ∧
    only (one macSlot 0x3000 0) .invalidArguments 0 (exec (.exportCtx .f256 1) (one macSlot 0x3000 0)) = true := by
  decide +kernel

/-- A state to import the image `im` from, into slot 1. -/
def importState (im : List Byte) : State := (one (uninitSlot .f256) 0x3000 0).storeBytes 0x3000 im

/-- I-1, and E-7's order of checks with a range that is not admitted. -/
theorem test_import :
    (after (exec (.importCtx .f256 1) (importState img256abc))).slot 1 = activeSlot .f256 ∧
    only (args (importState []) 0x8000 0) .busError 0 (exec (.importCtx .f256 1) (args (importState []) 0x8000 0)) =
      true := by decide +kernel
/-- I-2 to I-13 (41 R192, V1 to V7). -/
theorem test_import_validation :
    let ch := fun (i : Nat) (bs : List Byte) => (parse .f256 (splice img256abc i bs)).isSome
    [ch 112 [0], ch 112 [3], ch 113 [1], ch 115 [1], ch 103 [0x40], ch 40 [1], ch 111 [4]] = List.replicate 7 false ∧
    [ch 111 [0x43], ch 107 [1], ch 0 (List.replicate 32 0xFF)] = List.replicate 3 true ∧
    ((parse .f256 (image .f256 finCtx .finalized)).map fun p => p.2) = some .finalized ∧
    parse .f256 (splice (image .f256 finCtx .finalized) 103 [1]) = none := by decide +kernel

/-- L-5. -/
theorem test_cleanup : (after (exec (.cleanup 1) (one (activeSlot .f256) 0 0))).slot 1 = Slot.free := by decide +kernel
/-- L-4's double cleanup, L-7, H-11. -/
theorem test_cleanup_checks :
    [exec (.cleanup 2) (one macSlot 0 0), exec (.cleanup 0) (one macSlot 0 0), exec (.cleanup 5) (one macSlot 0 0),
      exec (.cleanup 1) (one macSlot 0 0)].all (only (one macSlot 0 0) .invalidArguments 0) = true := by decide +kernel

/-- TC1: the slot after HMAC_INIT. -/
theorem test_hmac_init :
    let s := args { base with mem := (List.range 20).map fun i => (0x1000 + i, 0x0b) } 0x1000 20
    (after (exec (.hmacInit .f256) s)).slot 1 = macSlot ∧ (after (exec (.hmacInit .f256) s)).rdata = 1 := by decide +kernel
/-- H-2, H-3, H-4. -/
theorem test_hmac_init_checks :
    only allUsed .outOfMemory 0 (exec (.hmacInit .f256) (args allUsed 0x1000 20)) = true ∧
    only allUsed .invalidArguments 0 (exec (.hmacInit .f256) (args allUsed 0 5)) = true ∧
    only base .busError 0 (exec (.hmacInit .f512) (args base 0x3FF0 0x20)) = true := by decide +kernel

/-- TC1: dc bl 8, tl 72, oc unchanged. -/
theorem test_hmac_update :
    (after (exec (.hmacUpdate .f256 1)
      { one macSlot 0x1100 8 with
        mem := (bytes 8 0x4869205468657265).zipIdx.map fun c => (0x1100 + c.2, c.1) })).slot 1 = macFedSlot := by
  decide +kernel
/-- H-5, H-6, H-7, H-14. -/
theorem test_hmac_update_checks :
    only (one finSlot 0 0) .invalidArguments 0 (exec (.hmacUpdate .f256 1) (one finSlot 0 0)) = true ∧
    only (one macSlot 0 0) .invalidArguments 0 (exec (.hmacUpdate .f512 1) (one macSlot 0 0)) = true ∧
    only (one macFinSlot 0 0) .invalidState 0 (exec (.hmacUpdate .f256 1) (one macFinSlot 0 0)) = true ∧
    only (one macSlot 0 0) .ok 0 (exec (.hmacUpdate .f256 1) (one macSlot 0 0)) = true := by decide +kernel

/-- TC1: the MAC written; dc bl 0, tl 72; oc bl 0, tl 96; phase FINALIZED. -/
theorem test_hmac_finalize :
    let t := after (exec (.hmacFinalize .f256 1) (one macFedSlot 0x2000 0))
    Memory.readRange t.mem 0x2000 32 = bytes 32 0xb0344c61d8db38535ca8afceaf0bf12b881dc200c9833da726e9376c2e32cff7 ∧
    ((t.slot 1).dc.bl, (t.slot 1).dc.tl, (t.slot 1).oc.bl, (t.slot 1).oc.tl, (t.slot 1).phase) =
      (0, 72, 0, 96, .finalized) ∧
    ser .f256 (t.slot 1).dc.state =
      bytes 32 0x92ab4d9a1f3b6152bca9dd9e69af43f4ce99e42fd4e30ff972c48025b9f9cfef := by decide +kernel
/-- H-8, H-9. -/
theorem test_hmac_finalize_checks :
    only (one macFinSlot 0x2000 0) .invalidState 0 (exec (.hmacFinalize .f256 1) (one macFinSlot 0x2000 0)) = true ∧
    only (one macSlot 0 0) .invalidArguments 0 (exec (.hmacFinalize .f256 1) (one macSlot 0 0)) = true := by decide +kernel

/-- H-12. -/
theorem test_hmac_cleanup : (after (exec (.hmacCleanup 1) (one macFinSlot 0 0))).slot 1 = Slot.free := by decide +kernel
/-- H-13, and a DIGEST slot. -/
theorem test_hmac_cleanup_checks :
    only base .invalidArguments 0 (exec (.hmacCleanup 1) base) = true ∧
    only (one finSlot 0 0) .invalidArguments 0 (exec (.hmacCleanup 1) (one finSlot 0 0)) = true := by decide +kernel

/-! ### The streamer -/

/-- 95 section 2.3: the padding boundary at 55 and 56 bytes (256) and at 111 and 112 bytes (512). -/
theorem test_padding_boundary :
    let a := fun n => List.replicate n 0x61#8
    digest Fips.prims .f256 (a 55) = bytes 32 0x9f4390f8d30c2dd92ec9f095b65e2b9ae9b0a925a5258e241c9f1e910f734318 ∧
    digest Fips.prims .f256 (a 56) = bytes 32 0xb35439a4ac6f0948b6d6f9e3c6af0f5f590ce20f1bde7090ef7970686ec6738a := by
  decide +kernel

/-- 95 section 1.1: SHA-512 of "abc". -/
theorem test_digest_512 : digest Fips.prims .f512 [0x61, 0x62, 0x63] =
    bytes 64 0xddaf35a193617abacc417349ae20413112e6fa4e89a97ea20a9eeee64b55d39a2192992a274fc1a836ba3c23a3feebbd454d4423643ce80e2a9ac94fa54ca49f := by
  decide +kernel

/-- 95 section 2.4. -/
theorem test_length_field :
    lenField .f256 3 = bytes 8 0x18 ∧ lenField .f256 (BitVec.ofNat 64 (2 ^ 61)) = zeros 8 ∧
    lenField .f256 (BitVec.ofNat 64 (2 ^ 61 - 1)) = bytes 8 0xfffffffffffffff8 ∧
    lenField .f512 (BitVec.ofNat 64 (2 ^ 61)) = bytes 16 0x10000000000000000 ∧
    lenField .f512 (BitVec.ofNat 64 (2 ^ 64 - 1)) = bytes 16 0x7fffffffffffffff8 := by decide +kernel

/-- 95 section 2.5: the counter wraps and no error is raised. -/
theorem test_counter_wrap :
    let dc := absorb Fips.prims .f256 { abcCtx .f256 with buf := zeros 64, bl := 63, tl := BitVec.ofNat 64 (2 ^ 64 - 1) } [0]
    (dc.bl, dc.tl) = (0, 0) := by decide +kernel

/-- 95 section 2.9: a 65-byte key is hashed, a 64-byte key is not. -/
theorem test_key_boundary :
    let ramp := fun n => (List.range n).map (BitVec.ofNat 8)
    padKey Fips.prims .f256 (ramp 64) = ramp 64 ∧
    padKey Fips.prims .f256 (ramp 65) = digest Fips.prims .f256 (ramp 65) ++ zeros 32 := by decide +kernel

/-! ### The window, the host agents, hazards and reset -/

/-- `s` with one host agent about to run `st`, its turn next. -/
def hostAt (s : State) (st : HostStmt) : State :=
  { s with hosts := [{ prog := [st], got := 0, handle := 0 }], schedule := [.host 0] }

/-- 95 section 2.2: reads after reset, and the two refused reads. -/
theorem test_window_reads :
    [0x00, 0x04, 0x08, 0x0C, 0x10, 0x14, 0x18, 0x1C, 0xFC].map State.reset.readWindow =
      [0x53484132, 0, 0, 0, 0, 0, 0x704, 0, 0] ∧
    stopOf (step (hostAt base (.winRead 0x01 1))) = some (.inr .windowAccess) ∧
    stopOf (step (hostAt base (.winRead 0x02 4))) = some (.inr .windowAccess) := by decide +kernel

/-- Log entry 13, the model's choice: a window statement past the window is refused. -/
theorem test_window_past_end : stopOf (step (hostAt base (.winRead 0x100 4))) = some (.inr .windowAccess) := by
  decide +kernel

/-- 95 section 2.2: STATUS encodings. -/
theorem test_status_encodings :
    { base with pend := true }.statusWord = 0x01 ∧ { base with pend := true, result := .invalidState }.statusWord = 0x31 ∧
    [Result.invalidArguments, .outOfMemory, .invalidState, .illegalCommand, .busError].map
      (fun r => { base with result := r }.statusWord) = [0x10, 0x20, 0x30, 0x40, 0x50] ∧
    { base with result := .illegalCommand, dropped := true }.statusWord = 0x42 := by decide +kernel

/-- 95 section 2.2: DROPPED is cleared by writing bit 1 = 1 only. -/
theorem test_dropped_clear :
    let s := { base with result := .illegalCommand, dropped := true }
    [0x00000000#32, 0xFFFFFFFD#32, 0x00000002#32].map
      (fun v => (after (step (hostAt s (.wr .status v)))).statusWord) = [0x42, 0x42, 0x40] := by decide +kernel

/-- P5: a CMD write is accepted when idle and dropped when busy. -/
theorem test_issue_hazard :
    let t := after (step (hostAt base (.wr .cmd 0x00000001#32)))
    let u := after (step (hostAt t (.wr .cmd 0x00000101#32)))
    (t.pend, t.lcmd, t.cmdLast, t.statusWord) = (true, 0x1, 0x1, 0x1) ∧
    (u.pend, u.lcmd, u.cmdLast, u.statusWord, u.faults) = (true, 0x1, 0x1, 0x3, []) := by decide +kernel

/-- FINALIZE.256 c1 with LADDR `a` pending on slot 1. -/
def pendingFinalize (a : Word) : State :=
  { one (activeSlot .f256) a 0 with pend := true, lcmd := 0x00010005, cmdLast := 0x00010005 }

/-- UPDATE.256 c1 of "abc" pending on slot 1. -/
def pendingUpdate : State :=
  { one (activeSlot .f256) 0x1000 3 with pend := true, lcmd := 0x00010004, cmdLast := 0x00010004 }

/-- Z-1 to Z-4. -/
theorem test_dma_hazard :
    (after (step (hostAt (pendingFinalize 0x2000) (.load 0x2010)))).faults = [.hazardDmaRange] ∧
    (after (step (hostAt pendingUpdate (.store 0x1002 0)))).faults = [.hazardDmaRange] ∧
    (after (step (hostAt pendingUpdate (.store 0x1003 0)))).faults = [] ∧
    (after (step (hostAt (pendingFinalize 0xFFFFFFF0) (.load 0xFFFFFFF8)))).faults = [.hazardDmaRange] := by
  decide +kernel

/-- R-2 and R-3: the range a reset frees. -/
theorem test_reset_pending_range : (pendingFinalize 0x2000).pendingStore = some (0x2000, 32) ∧
    (pendingFinalize 0).pendingStore = none ∧ pendingUpdate.pendingStore = none := by decide +kernel

/-- R-4: the update is lost, memory stays. -/
theorem test_reset_update : after (step { pendingUpdate with schedule := [.reset] }) = { base with mem := abcMem } := by decide +kernel

/-- 30 R118, R110: the table's word, and the step that runs it first after reset. -/
theorem test_table_word : decodeTableWord 32 0x00000101 = some (.ctxsize .f512) ∧
    (after (step (State.reset.withFetchWord 32 0x00000101))).rdata = 212 := by decide +kernel

/-- 10 R55: EXPECT of the wrong result stops the harness; a byte access in the window is refused. -/
theorem test_host_stops : stopOf (step (hostAt base (.expect 1))) = some (.inl .expectFailed) ∧
    stopOf (step (hostAt base (.load (2 ^ 32 + 1)))) = some (.inr .windowAccess) ∧
    stopOf (step (hostAt base (.store (2 ^ 32 + 256) 0))) = some (.inl .noSuchAddress) := by decide +kernel

/-! ### Witnesses: for every statement with hypotheses, a concrete state and operands that meet them -/

theorem test_witness_DecodeOfEncode : (Instr.update .f512 255).WellFormed ∧ (Instr.cleanup 0).WellFormed := by decide

theorem test_witness_EncodeOfDecode : decode 0x00FF0104#32 = .ok (.update .f512 255) ∧
    decode 0x00FF0108#32 = .ok (.cleanup 255) := by decide

theorem test_witness_IllegalWordsExactly :
    (∃ s : State, s.engineNext [] ∧ s.pend = true ∧ (∀ a ∈ s.raced, s.inDmaRange a = true) ∧
      decode s.lcmd = .error .reservedBits) ∧
    (∃ s : State, s.engineNext [] ∧ s.pend = true ∧ (∀ a ∈ s.raced, s.inDmaRange a = true) ∧
      decode s.lcmd = .error .reservedOpcode) :=
  ⟨⟨{ pendingUpdate with lcmd := 0x00010203 }, .inr (by decide), rfl, by decide, by decide⟩,
    ⟨{ pendingUpdate with lcmd := 0x0000000D }, .inr (by decide), rfl, by decide, by decide⟩⟩

theorem test_witness_StepRunsDecodedCommand :
    (∃ s : State, s.engineNext [.host 0] ∧ s.pend = true ∧ decode s.lcmd = .ok (.update .f256 1) ∧ s.raced = []) ∧
    (∃ s : State, s.engineNext [] ∧ s.pend = true ∧ decode s.lcmd = .ok (.finalize .f256 1) ∧ s.raced = [0x2000]) :=
  ⟨⟨{ pendingUpdate with schedule := [.engine, .host 0] }, .inl rfl, rfl, by decide, rfl⟩,
    ⟨{ pendingFinalize 0x2000 with raced := [0x2000] }, .inr (by decide), rfl, by decide, rfl⟩⟩

theorem test_witness_IdleEngineKeepsEverything : ∃ s : State, s.schedule = .engine :: [.host 0] ∧ s.pend = false :=
  ⟨{ base with schedule := [.engine, .host 0] }, rfl, rfl⟩

theorem test_witness_FailedCommandChangesNothing :
    ∃ t, exec (.update .f256 1) (one finSlot 0x1000 3) = .next t ∧ t.result ≠ .ok :=
  ⟨_, eq_next_after (by decide +kernel), by decide +kernel⟩

theorem test_witness_CommandRegisterFrame :
    ∃ t, exec (.finalize .f256 1) (one (activeSlot .f256) 0x2000 0) = .next t ∧ t.result = .ok :=
  ⟨_, eq_next_after (by decide +kernel), by decide +kernel⟩

theorem test_witness_NonStoringMemoryFrame :
    (∀ F h, (Instr.update .f256 1) ≠ .finalize F h ∧ (Instr.update .f256 1) ≠ .exportCtx F h ∧
      (Instr.update .f256 1) ≠ .hmacFinalize F h) ∧
    ∃ t, exec (.update .f256 1) (one (activeSlot .f256) 0x1000 3) = .next t ∧ t.result = .ok :=
  ⟨fun _ _ => ⟨by simp, by simp, by simp⟩, _, eq_next_after (by decide +kernel), by decide +kernel⟩

/-- The three storing commands, each at the last address its range may start at. -/
theorem test_witness_StoringMemoryFrame :
    (∃ t, exec (.finalize .f256 1) (one (activeSlot .f256) 0x3FE0 0) = .next t ∧ t.result = .ok) ∧
    (∃ t, exec (.hmacFinalize .f256 1) (one macFedSlot 0x3FE0 0) = .next t ∧ t.result = .ok) ∧
    (∃ t, exec (.exportCtx .f256 1) (one finSlot 0x3F8C 0) = .next t ∧ t.result = .ok) ∧
    ((one finSlot 0x3F8C 0).slot 1).dc.buf.length = Family.f256.block :=
  ⟨⟨_, eq_next_after (by decide +kernel), by decide +kernel⟩, ⟨_, eq_next_after (by decide +kernel), by decide +kernel⟩,
    ⟨_, eq_next_after (by decide +kernel), by decide +kernel⟩, by decide +kernel⟩

/-- The three ways a slot is left alone: not named, not the one allocated, named by an EXPORT. -/
theorem test_witness_OtherSlotsUnchanged :
    (∃ t, exec (.cleanup 1) (one finSlot 0 0) = .next t ∧ (Instr.cleanup 1).handle? ≠ some 4) ∧
    (∃ t, exec (.alloc .f256) (one finSlot 0 0) = .next t ∧ t.rdata.toNat ≠ 1 ∧ (Instr.alloc .f256).handle? ≠ some 1) ∧
    (∃ t, exec (.exportCtx .f256 1) (one finSlot 0x3000 0) = .next t ∧ t.result = .ok) :=
  ⟨⟨_, eq_next_after (by decide +kernel), by decide⟩, ⟨_, eq_next_after (by decide +kernel), by decide +kernel, by decide⟩,
    ⟨_, eq_next_after (by decide +kernel), by decide +kernel⟩⟩

/-- Each way a handle is bad, for both kinds; the last, a handle in range that names a slot of the wrong kind, at 1
and at 4. -/
theorem test_witness_BadHandleRaisesInvalidArguments :
    Config.nctx < 5 ∧ ((one macSlot 0 0).slot 1).kind ≠ .digest ∧ (allUsed.slot 4).kind ≠ .hmac ∧
      (base.slot 4).kind ≠ .digest := by decide +kernel

theorem test_witness_WrongFamilyRaisesInvalidArguments :
    Family.f512 ≠ Family.f256 ∧ (one finSlot 0 0).names 1 .digest .f256 ∧ allUsed.names 4 .digest .f256 ∧
      (one macSlot 0 0).names 1 .hmac .f256 := by
  unfold State.names; decide +kernel

theorem test_witness_WrongPhaseRaisesInvalidState :
    ((one finSlot 0 0).names 1 .digest .f256 ∧ ((one finSlot 0 0).slot 1).phase ≠ .active) ∧
    (allUsed.names 4 .digest .f256 ∧ (allUsed.slot 4).phase = .uninit) ∧
    ((one macFinSlot 0 0).names 1 .hmac .f256 ∧ ((one macFinSlot 0 0).slot 1).phase ≠ .active) := by
  unfold State.names; decide +kernel

/-- Each command at a null address, and the last where the range just passes 2^32. -/
theorem test_witness_IllegalRangeRaisesInvalidArguments :
    ((one (activeSlot .f256) 0 1).names 1 .digest .f256 ∧ ((one (activeSlot .f256) 0 1).slot 1).phase = .active ∧
      0 < transferWidth (.update .f256 1) (one (activeSlot .f256) 0 1).opLen ∧ (one (activeSlot .f256) 0 1).opAddr = 0) ∧
    ((one finSlot 0xFFFFFF8D 0).names 1 .digest .f256 ∧ ((one finSlot 0xFFFFFF8D 0).slot 1).phase ≠ .uninit ∧
      2 ^ 32 < (one finSlot 0xFFFFFF8D 0).opAddr + transferWidth (.exportCtx .f256 1) 0 ∧
      2 ^ 32 < (one finSlot 0xFFFFFF8D 0).opAddr + transferWidth (.importCtx .f256 1) 0) ∧
    (2 ^ 32 < (args base 0xFFFFFFF0 0x11).opAddr + transferWidth (.hmacInit .f256) (args base 0xFFFFFFF0 0x11).opLen) ∧
    ((one macSlot 0 1).names 1 .hmac .f256 ∧ ((one macSlot 0 1).slot 1).phase = .active ∧ (one macSlot 0 1).opAddr = 0 ∧
      0 < transferWidth (.hmacUpdate .f256 1) (one macSlot 0 1).opLen) := by
  unfold State.names; decide +kernel

/-- Each command with a range that ends one byte past the admitted one. -/
theorem test_witness_NotAdmittedRaisesBusError :
    let u := one (activeSlot .f256) 0x3FFE 3
    let f := one (activeSlot .f256) 0x3FE1 0
    let e := one finSlot 0x3F8D 0
    let m := one macSlot 0x3FFE 3
    let g := one macSlot 0x3FE1 0
    (u.names 1 .digest .f256 ∧ (u.slot 1).phase = .active ∧ u.opAddr ≠ 0 ∧ u.admits .read u.opAddr u.opLen = false) ∧
    (f.names 1 .digest .f256 ∧ (f.slot 1).phase = .active ∧ f.opAddr ≠ 0 ∧ f.admits .write f.opAddr 32 = false) ∧
    (e.names 1 .digest .f256 ∧ (e.slot 1).phase ≠ .uninit ∧ e.opAddr ≠ 0 ∧ e.admits .write e.opAddr 116 = false ∧
      e.admits .read e.opAddr 116 = false) ∧
    (m.names 1 .hmac .f256 ∧ (m.slot 1).phase = .active ∧ m.opAddr ≠ 0 ∧ m.opAddr + m.opLen ≤ 2 ^ 32 ∧
      m.admits .read m.opAddr m.opLen = false) ∧
    (g.names 1 .hmac .f256 ∧ (g.slot 1).phase = .active ∧ g.opAddr ≠ 0 ∧ g.admits .write g.opAddr 32 = false) := by
  unfold State.names; decide +kernel

theorem allUsed_full (a n : Word) : (args allUsed a n).full :=
  freeSlot_eq_none.1 (show allUsed.freeSlot = none by decide +kernel)

theorem test_witness_NoFreeSlotRaisesOutOfMemory :
    (args allUsed 0x1000 20).full ∧ (args allUsed 0x1000 20).mayMove .read (args allUsed 0x1000 20).opLen :=
  ⟨allUsed_full _ _, by unfold State.mayMove; decide +kernel⟩

theorem test_witness_AllocClaimsLowestFreeSlot :
    State.lowestFree base 1 ∧ (allUsed.setSlot 4 Slot.free).lowestFree 4 :=
  ⟨freeSlot_eq_some.1 (by decide +kernel), freeSlot_eq_some.1 (by decide +kernel)⟩

theorem test_witness_InitEstablishesInitialContext :
    (one finSlot 0 0).names 1 .digest .f256 ∧ allUsed.names 4 .digest .f256 := by
  unfold State.names; decide +kernel

/-- Also with LEN = 0 at address 0. -/
theorem test_witness_UpdateAbsorbsMessageBytes :
    ((one (activeSlot .f256) 0x1000 3).names 1 .digest .f256 ∧ ((one (activeSlot .f256) 0x1000 3).slot 1).phase = .active ∧
      (one (activeSlot .f256) 0x1000 3).mayMove .read (one (activeSlot .f256) 0x1000 3).opLen) ∧
    (one (activeSlot .f256) 0 0).mayMove .read (one (activeSlot .f256) 0 0).opLen := by
  unfold State.names State.mayMove; decide +kernel

theorem test_witness_FinalizeWritesDigest :
    (one (activeSlot .f512) 0x3FC0 0).names 1 .digest .f512 ∧ ((one (activeSlot .f512) 0x3FC0 0).slot 1).phase = .active ∧
      (one (activeSlot .f512) 0x3FC0 0).mayMove .write Family.f512.digLen := by
  unfold State.names State.mayMove; decide +kernel

theorem test_witness_ExportWritesImage :
    (one (activeSlot .f512) 0x3F2C 0).names 1 .digest .f512 ∧ ((one (activeSlot .f512) 0x3F2C 0).slot 1).phase ≠ .uninit ∧
      ((one (activeSlot .f512) 0x3F2C 0).slot 1).dc.buf.length = Family.f512.block ∧
      (one (activeSlot .f512) 0x3F2C 0).mayMove .write Family.f512.imageSize := by
  unfold State.names State.mayMove; decide +kernel

/-- Both clauses: an image that parses, and one that does not. -/
theorem test_witness_ImportRestoresParsedImage :
    ((importState img256abc).names 1 .digest .f256 ∧ (importState img256abc).mayMove .read Family.f256.imageSize ∧
      parse .f256 (Memory.readRange (importState img256abc).mem 0x3000 116) = some (abcCtx .f256, .active)) ∧
    ((importState []).names 1 .digest .f256 ∧ (importState []).mayMove .read Family.f256.imageSize ∧
      parse .f256 (Memory.readRange (importState []).mem 0x3000 116) = none) := by
  unfold State.names State.mayMove; decide +kernel

theorem test_witness_CleanupZeroesSlot :
    ((one finSlot 0 0).slot 1).kind = .digest ∧ (allUsed.slot 4).kind = .digest ∧ ((one macSlot 0 0).slot 1).kind = .hmac := by
  decide +kernel

theorem test_witness_HmacInitLoadsKey :
    State.lowestFree (args base 0x1000 20) 1 ∧ (args base 0x1000 20).mayMove .read (args base 0x1000 20).opLen :=
  ⟨freeSlot_eq_some.1 (by decide +kernel), by unfold State.mayMove; decide +kernel⟩

theorem test_witness_HmacUpdateFeedsInnerContext :
    (one macSlot 0x1000 3).names 1 .hmac .f256 ∧ ((one macSlot 0x1000 3).slot 1).phase = .active ∧
      (one macSlot 0x1000 3).mayMove .read (one macSlot 0x1000 3).opLen := by
  unfold State.names State.mayMove; decide +kernel

theorem test_witness_HmacFinalizeWritesMac :
    (one macSlot 0x3FE0 0).names 1 .hmac .f256 ∧ ((one macSlot 0x3FE0 0).slot 1).phase = .active ∧
      (one macSlot 0x3FE0 0).mayMove .write Family.f256.digLen := by
  unfold State.names State.mayMove; decide +kernel

theorem abcCtx_inv : (abcCtx .f256).Inv .f256 :=
  ⟨iv_fits _ _, by decide +kernel, by decide +kernel, by decide +kernel⟩

theorem activeSlot_inv : (activeSlot .f256).Inv :=
  ⟨abcCtx_inv, zero_inv _, by simp [activeSlot], by simp [activeSlot], by simp [activeSlot], fun _ => by decide +kernel,
    by simp [activeSlot], by simp [activeSlot], by simp [activeSlot], by simp [activeSlot]⟩

/-- An empty buffer and one that one more byte fills. -/
theorem test_witness_ChunkingInvariance : (initDC Fips.prims .f512).Inv .f512 ∧ (abcCtx .f256).Inv .f256 ∧
    (absorb Fips.prims .f256 (abcCtx .f256) (zeros 60)).Inv .f256 ∧
    (absorb Fips.prims .f256 (abcCtx .f256) (zeros 60)).bl = 63 :=
  ⟨initDC_inv _ _, abcCtx_inv, (absorb_spec _ abcCtx_inv _).2.2.2, (absorb_spec _ abcCtx_inv _).2.1⟩

theorem test_witness_AbsorbCompressesWholeBlocks : (abcCtx .f256).Inv .f256 := abcCtx_inv

theorem test_witness_LengthFieldShiftForm : 1 ≤ 7 ∧ 7 < Family.f256.lenLen ∧ 15 < Family.f512.lenLen := by decide

/-- Each family at the last count that takes one block and the first that takes two; a context for the third clause. -/
theorem test_witness_FinalBlockCount :
    (abcCtx .f256).Inv .f256 ∧
    [55, 56, 63].map (fun n => (finalBlocks .f256 { abcCtx .f256 with bl := n }).length) = [1, 2, 2] ∧
    [111, 112, 127].map (fun n => (finalBlocks .f512 { abcCtx .f512 with bl := n }).length) = [1, 2, 2] :=
  ⟨abcCtx_inv, by decide +kernel⟩

theorem test_witness_FinalBlocksArePadding :
    (abcCtx .f256).Inv .f256 ∧ (absorb Fips.prims .f256 (abcCtx .f256) (zeros 60)).Inv .f256 :=
  ⟨abcCtx_inv, (absorb_spec _ abcCtx_inv _).2.2.2⟩

/-- The state an engine command ends in, with new arguments latched for the next. -/
def thenArgs (o : Host.Outcome State Fault Refusal) (a n : Word) : State := args (after o) a n

theorem test_witness_InitUpdateFinalizeWritesDigest :
    ∃ s1 s2 s3 s4, exec (.init .f256 1) (one finSlot 0 0) = .next s1 ∧ s1.result = .ok ∧
      exec (.update .f256 1) (args s1 0x1000 1) = .next s2 ∧ s2.result = .ok ∧
      exec (.update .f256 1) (args s2 0x1001 2) = .next s3 ∧ s3.result = .ok ∧
      exec (.finalize .f256 1) { s3 with laddr := 0x2000 } = .next s4 ∧ s4.result = .ok := by
  refine ⟨_, _, _, _, eq_next_after ?_, ?_, eq_next_after ?_, ?_, eq_next_after ?_, ?_, eq_next_after ?_, ?_⟩ <;>
    decide +kernel

theorem test_witness_ImageLayout : (abcCtx .f256).buf.length = Family.f256.block ∧
    (DigestCtx.zero .f512).buf.length = Family.f512.block := by decide +kernel

theorem test_witness_ParseAcceptsValidImages :
    img256abc.length = Family.f256.imageSize ∧ slice img256abc (Family.f256.imageSize - 4) 4 = [1, 0, 0, 0] ∧
    beDec (slice img256abc (Family.f256.imageSize - 20) 8) = 3 ∧
    beDec (slice img256abc (Family.f256.imageSize - 12) 8) = 3 ∧
    parse .f256 img256abc = some (abcCtx .f256, .active) := by decide +kernel

/-- Slot 1 is exported and slot 2 imports the image. -/
theorem test_witness_ExportImportRoundTrip :
    let s := (one (activeSlot .f256) 0x3000 0).setSlot 2 (uninitSlot .f256)
    (activeSlot .f256).Inv ∧ (activeSlot .f256).kind = .digest ∧ (activeSlot .f256).phase ≠ .uninit ∧
    s.slot 1 = activeSlot .f256 ∧ s.names 1 .digest .f256 ∧
    ∃ t, exec (.exportCtx .f256 1) s = .next t ∧ t.result = .ok ∧ t.names 2 .digest .f256 ∧
      t.mayMove .read Family.f256.imageSize ∧ ∃ u, exec (.importCtx .f256 2) t = .next u := by
  refine ⟨activeSlot_inv, rfl, by decide, by decide +kernel, by unfold State.names; decide +kernel, _,
    eq_next_after (by decide +kernel), by decide +kernel, by unfold State.names; decide +kernel,
    by unfold State.mayMove; decide +kernel, _, eq_next_after (by decide +kernel)⟩

/-- Keys of BLOCK and BLOCK + 1 bytes, and the last byte of a key. -/
theorem test_witness_KeyDerivation :
    (zeros 64).length ≤ Family.f256.block ∧ Family.f256.block < (zeros 65).length ∧ 63 < Family.f256.block := by decide

theorem test_witness_HmacWritesNestedDigest :
    ∃ s1 s2 s3 s4, exec (.hmacInit .f256) (args { base with mem := abcMem } 0x1000 3) = .next s1 ∧ s1.result = .ok ∧
      s1.rdata.toNat = 1 ∧
      exec (.hmacUpdate .f256 1) (args s1 0x1000 1) = .next s2 ∧ s2.result = .ok ∧
      exec (.hmacUpdate .f256 1) (args s2 0x1001 2) = .next s3 ∧ s3.result = .ok ∧
      exec (.hmacFinalize .f256 1) { s3 with laddr := 0x2000 } = .next s4 ∧ s4.result = .ok := by
  refine ⟨_, _, _, _, eq_next_after ?_, ?_, ?_, eq_next_after ?_, ?_, eq_next_after ?_, ?_, eq_next_after ?_, ?_⟩ <;>
    decide +kernel

/-- A host turn by default: the schedule is used up and agent 1 is the first with a statement left. -/
theorem test_witness_default_host_turn :
    let h : HostAgent := { prog := [.winRead 0xFC 4], got := 0, handle := 0 }
    ({ base with hosts := [HostAgent.idle, h] } : State).hostNext 1 h (.winRead 0xFC 4) [] [] :=
  ⟨.inr (by decide +kernel), rfl, rfl⟩

theorem test_witness_WindowReadHasNoSideEffect :
    ∃ h, (hostAt base (.winRead 0xFC 4)).hostNext 0 h (.winRead 0xFC 4) [] [] :=
  ⟨_, .inl rfl, rfl, rfl⟩

theorem test_witness_IdleCmdWriteIsAccepted :
    ∃ h, (hostAt base (.winWrite 0x04 4 0x101#32)).hostNext 0 h (.winWrite 0x04 4 0x101#32) [] [] ∧
      (hostAt base (.winWrite 0x04 4 0x101#32)).pend = false :=
  ⟨_, ⟨.inl rfl, rfl, rfl⟩, rfl⟩

theorem test_witness_BusyCmdWriteIsDropped :
    ∃ h, (hostAt pendingUpdate (.winWrite 0x04 4 0x101#32)).hostNext 0 h (.winWrite 0x04 4 0x101#32) [] [] ∧
      (hostAt pendingUpdate (.winWrite 0x04 4 0x101#32)).pend = true :=
  ⟨_, ⟨.inl rfl, rfl, rfl⟩, rfl⟩

/-- Every kind of offset: ID, ADDR, LEN, STATUS, RDATA, CAPS and the reserved ones at both ends. -/
theorem test_witness_OtherWindowWrites :
    ∀ off ∈ [0x00, 0x08, 0x0C, 0x10, 0x14, 0x18, 0x1C, 0xFC], (off % 4 = 0 ∧ off < 256 ∧ off ≠ 0x04) ∧
      ∃ h, (hostAt base (.winWrite off 4 2#32)).hostNext 0 h (.winWrite off 4 2#32) [] [] :=
  fun off hoff => ⟨by revert off; decide, _, .inl rfl, rfl, rfl⟩

/-- A narrow access, a misaligned one, and bytes at both ends of the window. -/
theorem test_witness_MisalignedWindowAccessRefused :
    (∃ h, (hostAt base (.winRead 0x01 1)).hostNext 0 h (.winRead 0x01 1) [] []) ∧
    (∃ h, (hostAt base (.winWrite 0x02 4 0#32)).hostNext 0 h (.winWrite 0x02 4 0#32) [] []) ∧
    (∃ h, (hostAt base (.load (base.plat.base + 0))).hostNext 0 h (.load (base.plat.base + 0)) [] []) ∧
    (∃ h, (hostAt base (.store (base.plat.base + 255) 0#8)).hostNext 0 h (.store (base.plat.base + 255) 0#8) [] []) :=
  ⟨⟨_, .inl rfl, rfl, rfl⟩, ⟨_, .inl rfl, rfl, rfl⟩, ⟨_, .inl rfl, rfl, rfl⟩, ⟨_, .inl rfl, rfl, rfl⟩⟩

theorem test_witness_HostControlStatements :
    (∃ h, (hostAt pendingUpdate .wait).hostNext 0 h .wait [] []) ∧
    (∃ h, (hostAt base (.expect 0)).hostNext 0 h (.expect 0) [] [] ∧ (hostAt base (.expect 0)).result.code = 0) ∧
    (∃ h, (hostAt base .readHandle).hostNext 0 h .readHandle [] []) ∧
    (∃ h, (hostAt base (.cmdKept (.hmacCleanup 0))).hostNext 0 h (.cmdKept (.hmacCleanup 0)) [] [] ∧
      (hostAt base (.cmdKept (.hmacCleanup 0))).pend = false) ∧
    (∃ h, (hostAt pendingUpdate (.cmdKept (.hmacCleanup 0))).hostNext 0 h (.cmdKept (.hmacCleanup 0)) [] [] ∧
      (hostAt pendingUpdate (.cmdKept (.hmacCleanup 0))).pend = true) :=
  ⟨⟨_, .inl rfl, rfl, rfl⟩, ⟨_, ⟨.inl rfl, rfl, rfl⟩, rfl⟩, ⟨_, .inl rfl, rfl, rfl⟩, ⟨_, ⟨.inl rfl, rfl, rfl⟩, rfl⟩,
    ⟨_, ⟨.inl rfl, rfl, rfl⟩, rfl⟩⟩

theorem test_witness_PendingCommandUsesLatch : ∃ t, exec (.update .f256 1) pendingUpdate = .next t ∧ t.result = .ok :=
  ⟨_, eq_next_after (by decide +kernel), by decide +kernel⟩

/-- The first and the last byte of UPDATE's range. -/
theorem test_witness_DmaRangeAccessIsHazard :
    (∃ h, (hostAt pendingUpdate (.load 0x1000)).hostNext 0 h (.load 0x1000) [] []) ∧
    (∃ h, (hostAt pendingUpdate (.store 0x1002 0#8)).hostNext 0 h (.store 0x1002 0#8) [] []) ∧
    pendingUpdate.inWindow 0x1000 = false ∧ pendingUpdate.inWindow 0x1002 = false ∧ pendingUpdate.pend = true ∧
    decode pendingUpdate.lcmd = .ok (.update .f256 1) ∧ pendingUpdate.laddr.toNat ≤ 0x1000 ∧
    0x1002 < pendingUpdate.laddr.toNat + transferWidth (.update .f256 1) pendingUpdate.llen.toNat :=
  ⟨⟨_, .inl rfl, rfl, rfl⟩, ⟨_, .inl rfl, rfl, rfl⟩, by decide +kernel⟩

/-- The bytes on either side of UPDATE's range. -/
theorem test_witness_FreeMemoryAccess :
    (∃ h, (hostAt pendingUpdate (.load 0x1003)).hostNext 0 h (.load 0x1003) [] []) ∧
    (∃ h, (hostAt pendingUpdate (.store 0xFFF 0#8)).hostNext 0 h (.store 0xFFF 0#8) [] []) ∧
    pendingUpdate.inWindow 0x1003 = false ∧ pendingUpdate.inWindow 0xFFF = false ∧
    (pendingUpdate.pend = true → ∀ i, decode pendingUpdate.lcmd = .ok i →
      0xFFF < pendingUpdate.laddr.toNat ∧ pendingUpdate.laddr.toNat + transferWidth i pendingUpdate.llen.toNat ≤ 0x1003) := by
  refine ⟨⟨_, .inl rfl, rfl, rfl⟩, ⟨_, .inl rfl, rfl, rfl⟩, by decide +kernel, by decide +kernel, fun _ i hi => ?_⟩
  have e : i = .update .f256 1 := (Except.ok.inj ((show decode pendingUpdate.lcmd = .ok (.update .f256 1) by decide +kernel).symm.trans hi)).symm
  subst e
  decide +kernel

theorem test_witness_FaultSetOnlyGrows :
    ∃ t, step (hostAt { pendingUpdate with faults := [.hazardDmaRange] } (.load 0x1000)) = .next t :=
  ⟨_, eq_next_after (by decide +kernel)⟩

/-- A byte outside the write range of a FINALIZE, and any byte when the checks would fail. -/
theorem test_witness_ResetTurnErasesEngine :
    ({ pendingFinalize 0x2000 with schedule := [.reset] } : State).schedule = .reset :: [] ∧
    (pendingFinalize 0x2000).laddr.toNat + Family.f256.digLen ≤ 0x2020 ∧
    (after (exec (.finalize .f256 1) (pendingFinalize 0))).result ≠ .ok := by decide +kernel

/-- A pending UPDATE of a slot that holds "abc", in a machine that meets the invariant. -/
theorem test_witness_StepKeepsInvariant : pendingUpdate.Inv ∧ ∃ t, step pendingUpdate = .next t ∧ t.result = .ok := by
  refine ⟨⟨setSlot_slots_inv (s := { base with mem := abcMem }) reset_slots_inv 1 activeSlot_inv, ?_, ?_, ?_⟩, _,
    eq_next_after (by decide +kernel), by decide +kernel⟩ <;> decide +kernel

theorem test_witness_CleanupErasesContents :
    finSlot.kind = .digest ∧ (allUsed.slot 4).kind = .digest ∧ macFinSlot.kind = .hmac ∧
      ((one macSlot 0 0).slot 1).kind = .hmac := by decide +kernel

/-- A slot that holds something other than what another command would see, and a command on another slot. -/
theorem test_witness_SlotContentsStayInside :
    finSlot.kind = ((one (activeSlot .f256) 0 0).slot 1).kind ∧ (Instr.alloc .f256).handle? ≠ some 1 ∧
    (∃ t, exec (.alloc .f256) (one (activeSlot .f256) 0 0) = .next t) ∧
    (∃ u, exec (.alloc .f256) ((one (activeSlot .f256) 0 0).setSlot 1 finSlot) = .next u) ∧ 2 ≠ 1 :=
  ⟨by decide +kernel, by decide, ⟨_, eq_next_after (by decide +kernel)⟩, ⟨_, eq_next_after (by decide +kernel)⟩,
    by decide⟩

end Sys2Proof.Tests
end

section
/-! PROOFS. What every step and every command can do, the invariant, what a command reads, and the register window
(spec 10). -/

namespace Sys2Proof.Machine

/-! ### What a step can be -/

theorem with_schedule_nil {s : State} (h : s.schedule = []) : { s with schedule := [] } = s := by
  rw [← h]

/-- Everything a step can be, over the schedule it leaves: an engine turn, a turn of a host agent, a reset, or
nothing. -/
theorem step_cases {s t : State} (h : step s = .next t) : ∃ turns,
    State.engineTurn { s with schedule := turns } = .next t ∨
    (∃ k, State.hostTurn { s with schedule := turns } k = .next t) ∨
    t = State.resetTurn { s with schedule := turns } ∨ t = { s with schedule := turns } := by
  unfold step at h
  split at h
  case h_1 rest _ => exact ⟨rest, .inl h⟩
  case h_2 k rest _ => exact ⟨rest, .inr (.inl ⟨k, h⟩)⟩
  case h_3 rest _ => exact ⟨rest, .inr (.inr (.inl (Host.Outcome.next.inj h).symm))⟩
  case h_4 hs =>
    refine ⟨[], ?_⟩
    rw [with_schedule_nil hs]
    split at h
    · exact .inl h
    · split at h
      · exact .inr (.inl ⟨_, h⟩)
      · exact .inr (.inr (.inr (Host.Outcome.next.inj h).symm))

/-- What a host agent's statement does to the rest of the machine: nothing, a window write, or a byte access of
host memory. -/
def HostEffect (s u : State) : Prop :=
  u = s ∨ (∃ off v, u = s.writeWindow off v) ∨ (∃ a, u = (s.hostLoad a).2) ∨
    ∃ a b, a < Config.memSize ∧ u = s.hostStore a b

/-- A statement that goes on has such an effect, and then updates its own agent. -/
theorem runStmt_cases {s t : State} {k : Nat} {h : HostAgent} {rest : List HostStmt} {st : HostStmt}
    (e : s.runStmt k h rest st = .next t) : ∃ u h', HostEffect s u ∧ t = u.setHost k h' := by
  cases st <;> simp only [State.runStmt] at e
  case winRead off width =>
    split at e
    · exact ⟨s, _, .inl rfl, (Host.Outcome.next.inj e).symm⟩
    · cases e
  case winWrite off width v =>
    split at e
    · exact ⟨_, _, .inr (.inl ⟨off, v, rfl⟩), (Host.Outcome.next.inj e).symm⟩
    · cases e
  case load a =>
    obtain ⟨-, -, e⟩ := onMemory_eq_next e
    exact ⟨_, _, .inr (.inr (.inl ⟨a, rfl⟩)), (Host.Outcome.next.inj e).symm⟩
  case store a b =>
    obtain ⟨-, ha, e⟩ := onMemory_eq_next e
    exact ⟨_, _, .inr (.inr (.inr ⟨a, b, ha, rfl⟩)), (Host.Outcome.next.inj e).symm⟩
  case expect r =>
    split at e
    · exact ⟨s, _, .inl rfl, (Host.Outcome.next.inj e).symm⟩
    · cases e
  case cmdKept i => exact ⟨_, _, .inr (.inl ⟨4, _, rfl⟩), (Host.Outcome.next.inj e).symm⟩
  case wait | readHandle => exact ⟨s, _, .inl rfl, (Host.Outcome.next.inj e).symm⟩

/-- A host agent's turn does nothing, or runs a statement. -/
theorem hostTurn_cases {s t : State} {k : Nat} (e : s.hostTurn k = .next t) :
    t = s ∨ ∃ u h', HostEffect s u ∧ t = u.setHost k h' := by
  unfold State.hostTurn at e
  split at e
  · exact .inl (Host.Outcome.next.inj e).symm
  · split at e
    · exact .inl (Host.Outcome.next.inj e).symm
    · exact .inr (runStmt_cases e)

/-! ### What every command does -/

/-- A slot write changes the slot bank only. -/
theorem setSlot_shape (s : State) (h : Nat) (x : Slot) :
    s.setSlot h x = { s with slots := (s.setSlot h x).slots } := by
  cases h <;> rfl

/-- A command writes RESULT, RDATA, PEND, slots and host memory only (R50). -/
theorem exec_shape {i : Instr} {s t : State} (h : exec i s = .next t) :
    t = { s with result := t.result, rdata := t.rdata, pend := false, slots := t.slots, mem := t.mem } := by
  have wrote : ∀ (m : Memory) (g : Nat) (x : Slot) (d : Word),
      t = (State.setSlot { s with mem := m } g x).complete d →
      t = { s with result := t.result, rdata := t.rdata, pend := false, slots := t.slots, mem := t.mem } := by
    rintro m g x d rfl
    rw [setSlot_shape]
    rfl
  rcases exec_cases h with ⟨r, -, rfl⟩ | ⟨-, e⟩
  · rfl
  · cases i <;> simp only [Effect] at e
    case ctxsize | exportCtx => subst e; rfl
    case alloc => obtain ⟨g, -, e⟩ := e; exact wrote _ _ _ _ e
    case hmacInit => obtain ⟨g, -, e⟩ := e; exact wrote _ _ _ _ e
    case importCtx => obtain ⟨_, _, -, e⟩ := e; exact wrote _ _ _ _ e
    case hmacFinalize => obtain ⟨_, _, _, -, -, -, e⟩ := e; exact wrote _ _ _ _ e
    all_goals exact wrote _ _ _ _ e

/-- A guarded command answers a next state when what it guards does. -/
theorem guarded_next {s : State} (cs : List (Option Result)) {k : Host.Outcome State Fault Refusal}
    (h : ∃ t, k = .next t) : ∃ t, s.guarded cs k = .next t := by
  cases e : firstFailure cs with
  | none => rwa [guarded_pass e]
  | some r => exact ⟨_, guarded_fail e⟩

/-- No command stops the machine (R50). -/
theorem exec_next (i : Instr) (s : State) : ∃ t, exec i s = .next t := by
  cases i <;> simp only [exec, execCtxsize, execAlloc, execInit, execUpdate, execFinalize, execExport, execImport,
    execCleanup, execHmacInit, execHmacUpdate, execHmacFinalize, execHmacCleanup] <;> refine guarded_next _ ?_
  case alloc F | hmacInit F => cases s.freeSlot <;> exact ⟨_, rfl⟩
  case importCtx F h => cases parse F (s.operandBytes F.imageSize) <;> exact ⟨_, rfl⟩
  all_goals exact ⟨_, rfl⟩

/-- What has to hold of the named slot, the range and the direction for a command's checks to pass (R272). -/
def State.ready (s : State) : Instr → Prop
  | .ctxsize _ => True
  | .alloc _ => True
  | .init F h => s.names h .digest F
  | .update F h => s.names h .digest F ∧ (s.slot h).phase = .active ∧ s.mayMove .read s.opLen
  | .finalize F h => s.names h .digest F ∧ (s.slot h).phase = .active ∧ s.mayMove .write F.digLen
  | .exportCtx F h => s.names h .digest F ∧ (s.slot h).phase ≠ .uninit ∧ s.mayMove .write F.imageSize
  | .importCtx F h => s.names h .digest F ∧ s.mayMove .read F.imageSize
  | .cleanup h => s.chkCtx h .digest = none
  | .hmacInit _ => s.mayMove .read s.opLen
  | .hmacUpdate F h => s.names h .hmac F ∧ (s.slot h).phase = .active ∧ s.mayMove .read s.opLen
  | .hmacFinalize F h => s.names h .hmac F ∧ (s.slot h).phase = .active ∧ s.mayMove .write F.digLen
  | .hmacCleanup h => s.chkCtx h .hmac = none

theorem chkCtx_chkFam_eq_none {s : State} {h : Nat} {k : Kind} {F : Family} :
    (s.chkCtx h k = none ∧ s.chkFam h F = none) ↔ s.names h k F := by
  rw [chkCtx_eq_none, chkFam_eq_none, State.names]
  tauto

theorem firstFailure_append_eq_none {a b : List (Option Result)} :
    firstFailure (a ++ b) = none ↔ firstFailure a = none ∧ firstFailure b = none := by
  simp only [firstFailure_eq_none, List.mem_append, or_imp, forall_and]

theorem mem_active_finalized {p : Phase} : p ∈ [Phase.active, .finalized] ↔ p ≠ .uninit := by
  cases p <;> decide

/-- Every check of a command passes exactly when it is ready. -/
theorem checks_eq_none {s : State} {i : Instr} : firstFailure (s.checks i) = none ↔ s.ready i := by
  have slotChecks : ∀ {h : Nat} {k : Kind} {F : Family},
      firstFailure [s.chkCtx h k, s.chkFam h F] = none ↔ s.names h k F := by
    simp [firstFailure_eq_none, chkCtx_chkFam_eq_none]
  have phaseChecks : ∀ {h : Nat} {k : Kind} {F : Family} {S : List Phase},
      firstFailure [s.chkCtx h k, s.chkFam h F, s.chkPhase h S] = none ↔
        s.names h k F ∧ (s.slot h).phase ∈ S := by
    simp [firstFailure_eq_none, ← chkCtx_chkFam_eq_none, chkPhase_eq_none, and_assoc]
  cases i <;>
    simp only [State.checks, State.ready, firstFailure_append_eq_none, slotChecks, phaseChecks, rangeChecks_eq_none,
      mem_active_finalized, List.mem_singleton, and_assoc, firstFailure_nil]
  case cleanup | hmacCleanup => simp [firstFailure_eq_none]

/-! ### The slots the commands write meet the invariant -/

/-- The slot ALLOC claims (R251). -/
theorem allocSlot_inv (F : Family) :
    Slot.Inv { kind := .digest, fam := F, phase := .uninit, dc := .zero F, oc := .zero F } := by
  constructor <;> simp [zero_inv]

/-- The slot INIT leaves (R155). -/
theorem Slot.Inv.init {x : Slot} (hk : x.kind = .digest) (P : Prims) :
    Slot.Inv { x with dc := initDC P x.fam, oc := .zero x.fam, phase := .active } := by
  constructor <;> simp only [hk, reduceCtorEq, false_imp_iff, true_imp_iff]
  case inner => exact initDC_inv P x.fam
  case outer => exact zero_inv x.fam
  case activeBl => simp [initDC]

/-- Absorbing into an ACTIVE slot's first context, as UPDATE and HMAC_UPDATE do (R156, R226). -/
theorem Slot.Inv.withAbsorb {x : Slot} (hx : x.Inv) (hp : x.phase = .active) (P : Prims) (m : List Byte) :
    Slot.Inv { x with dc := absorb P x.fam x.dc m } := by
  obtain ⟨-, -, -, inv⟩ := absorb_spec P hx.inner m
  have hk : x.kind ≠ .none := fun e => by simp [hx.freeValue e, Slot.free] at hp
  constructor <;> simp only [hp, reduceCtorEq, false_imp_iff, true_imp_iff]
  case inner => exact inv
  case outer => exact hx.outer
  case freeValue => exact fun e => absurd e hk
  case digestOuter => exact hx.digestOuter
  case activeBl => exact absorb_bl_eq P hx.inner m (hx.activeBl hp)
  case activeOuterBl => exact hx.activeOuterBl hp
  case hmacPhase => simp

/-- A DIGEST slot whose context FINALIZE has finished (R157). -/
theorem Slot.Inv.finalize {x : Slot} (hx : x.Inv) (hk : x.kind = .digest) {st : Words 64} (hw : wordsFit x.fam st)
    (dc : DigestCtx) : Slot.Inv { x with dc := finalDC x.fam dc st, phase := .finalized } := by
  constructor <;> simp only [hk, reduceCtorEq, false_imp_iff, true_imp_iff]
  case inner => exact finalDC_inv hw dc
  case outer => exact hx.outer
  case digestOuter => exact hx.digestOuter hk
  case finalInner => exact ⟨rfl, rfl⟩

/-- An HMAC slot both of whose contexts HMAC_FINALIZE has finished (R227). -/
theorem Slot.Inv.hmacFinalize {x : Slot} (hk : x.kind = .hmac) {ist ost : Words 64} (hi : wordsFit x.fam ist)
    (ho : wordsFit x.fam ost) (dc oc : DigestCtx) :
    Slot.Inv { x with dc := finalDC x.fam dc ist, oc := finalDC x.fam oc ost, phase := .finalized } := by
  constructor <;> simp only [hk, reduceCtorEq, false_imp_iff, true_imp_iff]
  case inner => exact finalDC_inv hi dc
  case outer => exact finalDC_inv ho oc
  case finalInner | finalOuter => exact ⟨rfl, rfl⟩
  case hmacPhase => simp

/-- A DIGEST slot with the context of a parsed image (R196). -/
theorem Slot.Inv.importCtx {x : Slot} (hx : x.Inv) (hk : x.kind = .digest) {bs : List Byte}
    (hl : bs.length = x.fam.imageSize) {dc : DigestCtx} {ph : Phase} (hp : parse x.fam bs = some (dc, ph)) :
    Slot.Inv { x with dc := dc, phase := ph } := by
  obtain ⟨inv, phase⟩ := parse_inv hl hp
  constructor <;> simp only [hk, reduceCtorEq, false_imp_iff, true_imp_iff]
  case inner => exact inv
  case outer => exact hx.outer
  case digestOuter => exact hx.digestOuter hk
  case uninitZero => rcases phase with ⟨rfl, -⟩ | ⟨rfl, -⟩ <;> simp
  case activeBl => rcases phase with ⟨rfl, h⟩ | ⟨rfl, -⟩ <;> simp [*]
  case activeOuterBl => simp
  case finalInner => rcases phase with ⟨rfl, -⟩ | ⟨rfl, h⟩ <;> simp [*]
  case finalOuter => simp

/-- An initial context that has absorbed a derived key: one block (R223). -/
theorem keyed_inv (P : Prims) (F : Family) {K : List Byte} :
    (absorb P F (initDC P F) K).Inv F ∧
      (absorb P F (initDC P F) K).bl = (absorb P F (initDC P F) K).tl.toNat % F.block :=
  ⟨(absorb_spec P (initDC_inv P F) K).2.2.2, absorb_bl_eq P (initDC_inv P F) K (by simp [initDC])⟩

/-- The slot HMAC_INIT claims (R225). -/
theorem hmacInitSlot_inv (P : Prims) (F : Family) (ik ok : List Byte) :
    Slot.Inv { kind := .hmac, fam := F, phase := .active
               dc := absorb P F (initDC P F) ik, oc := absorb P F (initDC P F) ok } := by
  constructor <;> simp only [reduceCtorEq, false_imp_iff, true_imp_iff, true_or]
  case inner | outer => exact (keyed_inv P F).1
  case activeBl | activeOuterBl => exact (keyed_inv P F).2

/-! ### Every command keeps the invariant's parts -/

/-- A command keeps the slot invariants. -/
theorem exec_slots_inv {i : Instr} {s t : State} (hs : s.Inv) (h : exec i s = .next t) :
    ∀ x ∈ t.slots.toList, Slot.Inv x := by
  rcases exec_cases h with ⟨r, -, rfl⟩ | ⟨hc, e⟩
  · exact hs.slots
  have wrote : ∀ {m : Memory} {g : Nat} {x : Slot} {d : Word}, x.Inv →
      t = (State.setSlot { s with mem := m } g x).complete d → ∀ y ∈ t.slots.toList, Slot.Inv y := by
    rintro m g x d hx rfl
    exact setSlot_slots_inv (s := { s with mem := m }) hs.slots g hx
  have hr := checks_eq_none.1 hc
  cases i <;> simp only [Effect] at e <;> simp only [State.ready] at hr
  case ctxsize | exportCtx => subst e; exact hs.slots
  case alloc F => obtain ⟨g, -, e⟩ := e; exact wrote (allocSlot_inv F) e
  case init F g =>
    obtain ⟨-, -, hk, rfl⟩ := hr
    exact wrote (.init hk _) e
  case update F g =>
    obtain ⟨⟨-, -, hk, rfl⟩, hp, -⟩ := hr
    exact wrote ((hs.slot g).withAbsorb hp _ _) e
  case finalize F g =>
    obtain ⟨⟨-, -, hk, rfl⟩, -, -⟩ := hr
    exact wrote ((hs.slot g).finalize hk (finishState_fits _ _ _) _) e
  case importCtx F g =>
    obtain ⟨⟨-, -, hk, rfl⟩, -⟩ := hr
    obtain ⟨dc, ph, hp, e⟩ := e
    exact wrote ((hs.slot g).importCtx hk (Memory.length_readRange _ _ _) hp) e
  case cleanup g | hmacCleanup g => exact wrote Slot.free_inv e
  case hmacInit F => obtain ⟨g, -, e⟩ := e; exact wrote (hmacInitSlot_inv _ F _ _) e
  case hmacUpdate F g =>
    obtain ⟨⟨-, -, hk, rfl⟩, hp, -⟩ := hr
    exact wrote ((hs.slot g).withAbsorb hp _ _) e
  case hmacFinalize F g =>
    obtain ⟨⟨-, -, hk, rfl⟩, -, -⟩ := hr
    obtain ⟨ist, oc1, ost, rfl, -, rfl, e⟩ := e
    exact wrote (.hmacFinalize hk (finishState_fits _ _ _) (finishState_fits _ _ _) _ _) e

/-- A command leaves host memory alone, or stores one string over a range it may write. -/
theorem exec_mem {i : Instr} {s t : State} (hs : s.Inv) (h : exec i s = .next t) :
    t.mem = s.mem ∨ ∃ bs, s.mayMove .write bs.length ∧ t.mem = Memory.writeRange s.mem s.opAddr bs := by
  rcases exec_cases h with ⟨r, -, rfl⟩ | ⟨hc, e⟩
  · exact .inl rfl
  have hr := checks_eq_none.1 hc
  cases i <;> simp only [Effect] at e <;> simp only [State.ready] at hr
  case alloc | hmacInit => obtain ⟨g, -, rfl⟩ := e; exact .inl (by simp)
  case importCtx => obtain ⟨dc, ph, -, rfl⟩ := e; exact .inl (by simp)
  case finalize F g =>
    obtain ⟨-, -, hw⟩ := hr
    subst e
    exact .inr ⟨ser F _, by rwa [length_ser], State.setSlot_mem _ _ _⟩
  case exportCtx F g =>
    obtain ⟨⟨-, -, -, rfl⟩, -, hw⟩ := hr
    subst e
    exact .inr ⟨_, by rwa [length_image _ _ _ (hs.slot g).inner.bufLen], rfl⟩
  case hmacFinalize F g =>
    obtain ⟨-, -, hw⟩ := hr
    obtain ⟨_, _, ost, -, -, -, rfl⟩ := e
    exact .inr ⟨ser F ost, by rwa [length_ser], State.setSlot_mem _ _ _⟩
  all_goals subst e; exact .inl (by simp)

/-- The canonical form of a memory within host memory's addresses: the memory part of the invariant (R80). -/
def Memory.ok (m : Memory) : Prop := m.wf ∧ ∀ c ∈ m, c.1 < Config.memSize

theorem State.Inv.memOk {s : State} (h : s.Inv) : Memory.ok s.mem := ⟨h.memWf, h.memBound⟩

theorem Memory.ok.put {m : Memory} (h : m.ok) {a : Nat} (ha : a < Config.memSize) (b : Byte) :
    Memory.ok (m.put a b) := by
  refine ⟨Memory.put_wf m h.1 a b, fun c hc => ?_⟩
  rcases Memory.mem_put m a b hc with hc | ⟨rfl, -⟩
  · exact h.2 c hc
  · exact ha

/-- A string stored over a range that may be moved. -/
theorem Memory.ok.writeRange {s : State} (h : Memory.ok s.mem) {d : Dir} {bs : List Byte} (hw : s.mayMove d bs.length) :
    Memory.ok (Memory.writeRange s.mem s.opAddr bs) :=
  ⟨Memory.writeRange_wf _ _ h.1 _, writeRange_bound h.2 hw rfl⟩

theorem exec_memOk {i : Instr} {s t : State} (hs : s.Inv) (h : exec i s = .next t) : Memory.ok t.mem := by
  rcases exec_mem hs h with e | ⟨bs, hw, e⟩ <;> rw [e]
  · exact hs.memOk
  · exact hs.memOk.writeRange hw

/-! ### Every agent's turn keeps the invariant -/

/-- The pending command's DMA range is a matter of PEND and the latch. -/
theorem inDmaRange_congr {s t : State} (hp : t.pend = s.pend) (hc : t.lcmd = s.lcmd) (ha : t.laddr = s.laddr)
    (hn : t.llen = s.llen) (a : Nat) : t.inDmaRange a = s.inDmaRange a := by
  unfold State.inDmaRange State.opAddr State.opLen
  rw [hp, hc, ha, hn]

/-- The invariant sees slots, memory, the record of races, and the pending command only. -/
theorem State.Inv.congr {s t : State} (h : s.Inv) (hs : t.slots = s.slots) (hm : t.mem = s.mem) (hr : t.raced = s.raced)
    (hp : t.pend = s.pend) (hc : t.lcmd = s.lcmd) (ha : t.laddr = s.laddr) (hn : t.llen = s.llen) : t.Inv where
  slots := hs ▸ h.slots
  memWf := hm ▸ h.memWf
  memBound := hm ▸ h.memBound
  racedRange a hx := (inDmaRange_congr hp hc ha hn a).trans (h.racedRange a (hr ▸ hx))

theorem State.Inv.withSchedule {s : State} (h : s.Inv) (turns : List Turn) : State.Inv { s with schedule := turns } :=
  h.congr rfl rfl rfl rfl rfl rfl rfl

/-- No race is on record while no command is pending. -/
theorem State.Inv.raced_nil {s : State} (h : s.Inv) (hp : s.pend = false) : s.raced = [] := by
  refine List.eq_nil_iff_forall_not_mem.2 fun a ha => ?_
  have := (inDmaRange_true (h.racedRange a ha)).1
  simp [hp] at this

/-- Settling races over addresses of host memory ends in a state that meets the invariant, if slots and memory did. -/
theorem settleRaces_inv {s : State} (hs : ∀ x ∈ s.slots.toList, Slot.Inv x) (hm : Memory.ok s.mem)
    (hr : ∀ a ∈ s.raced, a < Config.memSize) : s.settleRaces.Inv := by
  obtain ⟨m, n, e, hw, -, hmem⟩ := havoc_spec s.raced s
  rw [State.settleRaces, e]
  refine ⟨hs, hw hm.1, fun c hc => ?_, by simp⟩
  rcases hmem c hc with h | h
  · exact hm.2 c h
  · exact hr _ h

/-- The pending word keeps the slot and memory invariants, and the record of races. -/
theorem runPending_inv {s t : State} (hs : s.Inv) (h : s.runPending = .next t) :
    (∀ x ∈ t.slots.toList, Slot.Inv x) ∧ Memory.ok t.mem ∧ t.raced = s.raced := by
  unfold State.runPending at h
  split at h
  · exact ⟨exec_slots_inv hs h, exec_memOk hs h, by rw [exec_shape h]⟩
  · cases h
    exact ⟨hs.slots, hs.memOk, rfl⟩

theorem mapNext_eq_next {f : State → State} {o : Host.Outcome State Fault Refusal} {t : State}
    (h : mapNext f o = .next t) : ∃ u, o = .next u ∧ t = f u := by
  cases o
  case next u => exact ⟨u, rfl, (Host.Outcome.next.inj h).symm⟩
  all_goals cases h

theorem engineTurn_inv {s t : State} (hs : s.Inv) (h : s.engineTurn = .next t) : t.Inv := by
  unfold State.engineTurn at h
  split at h
  · obtain ⟨u, hu, rfl⟩ := mapNext_eq_next h
    obtain ⟨slots, mem, raced⟩ := runPending_inv hs hu
    exact settleRaces_inv slots mem fun a ha => (inDmaRange_true (hs.racedRange a (raced ▸ ha))).2
  · cases h
    exact hs

/-- A window write keeps the invariant: an accepted command finds no race on record. -/
theorem writeWindow_inv {s : State} (hs : s.Inv) (off : Nat) (v : Word) : (s.writeWindow off v).Inv := by
  unfold State.writeWindow
  split
  case h_1 =>
    unfold State.writeCmd
    split
    · exact hs.congr rfl rfl rfl rfl rfl rfl rfl
    case isFalse hp =>
      refine ⟨hs.slots, hs.memWf, hs.memBound, ?_⟩
      simp [hs.raced_nil (by simpa using hp)]
  case h_4 =>
    unfold State.writeStatus
    split
    · exact hs.congr rfl rfl rfl rfl rfl rfl rfl
    · exact hs
  all_goals exact hs.congr rfl rfl rfl rfl rfl rfl rfl

/-- A host's byte write keeps the invariant: a race goes on record only inside the DMA range. -/
theorem hostStore_inv {s : State} (hs : s.Inv) {a : Nat} (ha : a < Config.memSize) (b : Byte) :
    (s.hostStore a b).Inv := by
  obtain ⟨fs, n, v, rs, e, -, hr, -⟩ := hostStore_spec s a b
  rw [e]
  have hm := hs.memOk.put ha v
  refine ⟨hs.slots, hm.1, hm.2, fun x hx => ?_⟩
  suffices s.inDmaRange x = true from (inDmaRange_congr rfl rfl rfl rfl x).trans this
  have hx : x ∈ rs := hx
  rw [hr] at hx
  split at hx
  case isTrue hrace =>
    rcases List.mem_cons.1 hx with rfl | hx
    · exact hrace
    · exact hs.racedRange x hx
  case isFalse => exact hs.racedRange x hx

theorem HostEffect.inv {s u : State} (hs : s.Inv) (h : HostEffect s u) : u.Inv := by
  rcases h with rfl | ⟨off, v, rfl⟩ | ⟨a, rfl⟩ | ⟨a, b, ha, rfl⟩
  · exact hs
  · exact writeWindow_inv hs off v
  · obtain ⟨fs, n, e, -⟩ := hostLoad_spec s a
    rw [e]
    exact hs.congr rfl rfl rfl rfl rfl rfl rfl
  · exact hostStore_inv hs ha b

theorem hostTurn_inv {s t : State} {k : Nat} (hs : s.Inv) (h : s.hostTurn k = .next t) : t.Inv := by
  rcases hostTurn_cases h with rfl | ⟨u, h', hu, rfl⟩
  · exact hs
  · exact (hu.inv hs).congr rfl rfl rfl rfl rfl rfl rfl

/-- A storing command that is ready may write the whole range it moves. -/
theorem mayMove_of_ready {s : State} {i : Instr} (hd : transferDir i = some .write) (h : s.ready i) :
    s.mayMove .write (transferWidth i s.opLen) := by
  cases i <;> simp only [transferDir, reduceCtorEq, Option.some.injEq] at hd <;> exact h.2.2

theorem resetTurn_inv {s : State} (hs : s.Inv) : s.resetTurn.Inv := by
  obtain ⟨m, n, e, -, hm⟩ := resetTurn_spec s
  have ok : Memory.ok m := by
    rcases hm with rfl | ⟨a, k, bs, hp, rfl, rfl⟩
    · exact hs.memOk
    · obtain ⟨i, -, -, hd, hc, rfl, hl⟩ := pendingStore_eq_some hp
      exact hs.memOk.writeRange (hl ▸ mayMove_of_ready hd (checks_eq_none.1 hc))
  rw [e]
  exact ⟨reset_slots_inv, ok.1, ok.2, List.forall_mem_nil _⟩

/-- Settles O57: each kind of turn keeps the invariant. -/
theorem stepKeepsInvariant : Obligations.StepKeepsInvariant := by
  intro s t hs h
  obtain ⟨turns, h⟩ := step_cases h
  have hs' := hs.withSchedule turns
  rcases h with h | ⟨k, h⟩ | rfl | rfl
  · exact engineTurn_inv hs' h
  · exact hostTurn_inv hs' h
  · exact resetTurn_inv hs'
  · exact hs'

/-- Settles O56. -/
theorem resetMeetsInvariant : Obligations.ResetMeetsInvariant :=
  ⟨reset_slots_inv, ⟨.nil, List.forall_mem_nil _⟩, List.forall_mem_nil _, List.forall_mem_nil _⟩

/-! ### Two runs of a command that see the same -/

/-- The two states hold the same host memory and, but for slot `g`, the same slots. -/
structure AgreeBut (g : Nat) (s s' : State) : Prop where
  mem : s'.mem = s.mem
  slots : ∀ k, k ≠ g → s'.slot k = s.slot k

theorem AgreeBut.storeBytes {g : Nat} {s s' : State} (h : AgreeBut g s s') (a : Nat) (bs : List Byte) :
    AgreeBut g (s.storeBytes a bs) (s'.storeBytes a bs) where
  mem := by simp [h.mem]
  slots k hk := by simp [h.slots k hk]

/-- A slot just written reads back what was written, if the handle names a slot. -/
theorem slot_setSlot_self (s : State) (h : Nat) (x : Slot) :
    (s.setSlot h x).slot h = if 1 ≤ h ∧ h ≤ Config.nctx then x else Slot.free := by
  split
  case isTrue hr => exact State.slot_setSlot_same _ _ hr.1 hr.2
  case isFalse hr => exact State.slot_out_of_range _ (by omega)

theorem slot_setSlot_congr {s s' : State} {k : Nat} (e : s'.slot k = s.slot k) (h : Nat) (x : Slot) :
    (s'.setSlot h x).slot k = (s.setSlot h x).slot k := by
  by_cases hk : k = h
  · subst hk
    rw [slot_setSlot_self, slot_setSlot_self]
  · rw [State.slot_setSlot_ne _ _ hk, State.slot_setSlot_ne _ _ hk, e]

theorem AgreeBut.setSlot {g : Nat} {s s' : State} (a : AgreeBut g s s') (h : Nat) (x : Slot) :
    AgreeBut g (s.setSlot h x) (s'.setSlot h x) where
  mem := by simp [a.mem]
  slots k hk := slot_setSlot_congr (a.slots k hk) h x

/-- Two next states of a command, the same as far as it shows: memory, RESULT, RDATA, and every slot but `g`. -/
def SameEnd (g : Nat) (o o' : Host.Outcome State Fault Refusal) : Prop :=
  ∃ t u, o = .next t ∧ o' = .next u ∧ AgreeBut g t u ∧ u.result = t.result ∧ u.rdata = t.rdata

theorem AgreeBut.finish {g : Nat} {s s' : State} (a : AgreeBut g s s') (r : Result) (d : Word) :
    SameEnd g (.next (s.finish r d)) (.next (s'.finish r d)) :=
  ⟨_, _, rfl, rfl, ⟨a.mem, fun k hk => by simp [a.slots k hk]⟩, rfl, rfl⟩

/-- All that command `i` reads is the same in both states: platform, memory, the latched arguments, the slot it
names, and the kinds of the slots; and so are the slots but `g`. -/
structure Alike (g : Nat) (i : Instr) (s s' : State) : Prop extends AgreeBut g s s' where
  plat : s'.plat = s.plat
  laddr : s'.laddr = s.laddr
  llen : s'.llen = s.llen
  named : ∀ h, i.handle? = some h → s'.slot h = s.slot h
  kind : ∀ k, (s'.slot k).kind = (s.slot k).kind

namespace Alike

variable {g : Nat} {i : Instr} {s s' : State}

theorem prims (a : Alike g i s s') : s'.prims = s.prims := by
  unfold State.prims
  rw [a.plat]

theorem opAddr (a : Alike g i s s') : s'.opAddr = s.opAddr := by
  unfold State.opAddr
  rw [a.laddr]

theorem opLen (a : Alike g i s s') : s'.opLen = s.opLen := by
  unfold State.opLen
  rw [a.llen]

theorem operandBytes (a : Alike g i s s') (n : Nat) : s'.operandBytes n = s.operandBytes n := by
  unfold State.operandBytes
  rw [a.mem, a.opAddr]

theorem rangeChecks (a : Alike g i s s') (d : Dir) (n : Nat) : s'.rangeChecks d n = s.rangeChecks d n := by
  unfold State.rangeChecks State.chkAdmit State.admits
  rw [a.opAddr, a.plat]

/-- FreeSlot sees the kinds of the slots only. -/
theorem freeSlot (a : Alike g i s s') : s'.freeSlot = s.freeSlot := by
  simp only [State.freeSlot, a.kind]

theorem checks (a : Alike g i s s') : s'.checks i = s.checks i := by
  have named := a.named
  cases i <;> simp only [Instr.handle?, Option.some.injEq, forall_eq', reduceCtorEq] at named <;>
    simp only [State.checks, State.chkCtx, State.chkFam, State.chkPhase, a.rangeChecks, a.opLen, named]

/-- The command does the same in both states, as far as it shows. -/
theorem sameEnd_exec (a : Alike g i s s') : SameEnd g (exec i s) (exec i s') := by
  have ag := a.toAgreeBut
  cases hc : firstFailure (s.checks i) with
  | some r =>
    rw [exec_fail hc, exec_fail (a.checks ▸ hc)]
    exact ag.finish r 0
  | none =>
    have hc' : firstFailure (s'.checks i) = none := a.checks ▸ hc
    have named := a.named
    cases i <;> simp only [Instr.handle?, Option.some.injEq, forall_eq', reduceCtorEq] at named <;>
      simp only [exec, execCtxsize, execAlloc, execInit, execUpdate, execFinalize, execExport, execImport,
        execCleanup, execHmacInit, execHmacUpdate, execHmacFinalize, execHmacCleanup, guarded_pass hc, guarded_pass hc',
        named, a.prims, a.opAddr, a.opLen, a.operandBytes, a.freeSlot]
    case ctxsize => exact ag.finish _ _
    case alloc | hmacInit =>
      cases s.freeSlot with
      | none => exact ag.finish _ _
      | some h => exact (ag.setSlot _ _).finish _ _
    case exportCtx => exact (ag.storeBytes _ _).finish _ _
    case importCtx F h =>
      cases parse F (s.operandBytes F.imageSize) with
      | none => exact ag.finish _ _
      | some p => exact (ag.setSlot _ _).finish _ _
    case finalize | hmacFinalize => exact ((ag.storeBytes _ _).setSlot _ _).finish _ _
    all_goals exact (ag.setSlot _ _).finish _ _

end Alike

/-- A slot write of the kind that stood there changes no slot's kind. -/
theorem kind_setSlot {s : State} {g : Nat} {x : Slot} (hx : x.kind = (s.slot g).kind) (k : Nat) :
    ((s.setSlot g x).slot k).kind = (s.slot k).kind := by
  by_cases e : k = g
  · subst e
    rw [slot_setSlot_self]
    split
    case isTrue => exact hx
    case isFalse hr => rw [State.slot_out_of_range s (by omega)]
  · rw [State.slot_setSlot_ne _ _ e]

/-- To a command that does not name slot `g`, its contents make no difference (R48). -/
theorem alike_setSlot {i : Instr} {s : State} {g : Nat} {x : Slot} (hx : x.kind = (s.slot g).kind)
    (hi : i.handle? ≠ some g) : Alike g i s (s.setSlot g x) where
  mem := by simp
  slots k hk := State.slot_setSlot_ne _ _ hk
  plat := by simp
  laddr := by simp
  llen := by simp
  named h hh := State.slot_setSlot_ne _ _ fun e => hi (e ▸ hh)
  kind := kind_setSlot hx

/-- To every command, the live ADDR and LEN make no difference (R35). Handle 0 names no slot, so all slots agree. -/
theorem alike_addr_len (i : Instr) (s : State) (a n : Word) : Alike 0 i s { s with addr := a, len := n } where
  mem := rfl
  slots k _ := State.slot_congr rfl k
  plat := rfl
  laddr := rfl
  llen := rfl
  named h _ := State.slot_congr rfl h
  kind k := congrArg Slot.kind (State.slot_congr rfl k)

/-! ### The window -/

/-- The window reads registers only, so a slot write does not show (R48). -/
theorem readWindow_setSlot (s : State) (g : Nat) (x : Slot) (off : Nat) :
    (s.setSlot g x).readWindow off = s.readWindow off := by
  cases g <;> rfl

/-- An aligned 32-bit read inside the window is served (R55). -/
theorem winRead_aligned {s : State} {k off : Nat} {h : HostAgent} {rest : List HostStmt} (ha : off % 4 = 0)
    (hw : off < 256) :
    s.runStmt k h rest (.winRead off 4) = .next (s.setHost k { h with prog := rest, got := s.readWindow off }) :=
  if_pos ⟨rfl, ha, hw⟩

/-- An aligned 32-bit write inside the window is served (R55). -/
theorem winWrite_aligned {s : State} {k off : Nat} {h : HostAgent} {v : Word} {rest : List HostStmt} (ha : off % 4 = 0)
    (hw : off < 256) :
    s.runStmt k h rest (.winWrite off 4 v) = .next ((s.writeWindow off v).setHost k { h with prog := rest }) :=
  if_pos ⟨rfl, ha, hw⟩

/-- A write at an aligned offset other than CMD's, by register (R35, R37, R55). -/
theorem writeWindow_not_cmd (s : State) {off : Nat} (v : Word) (hc : off ≠ 0x04) :
    s.writeWindow off v = { s with
      addr := if off = 0x08 then v else s.addr
      len := if off = 0x0C then v else s.len
      dropped := if off = 0x10 ∧ v.getLsbD 1 = true then false else s.dropped } := by
  unfold State.writeWindow
  split
  case h_1 => exact absurd rfl hc
  case h_2 | h_3 => rfl
  case h_4 => cases hv : v.getLsbD 1 <;> simp only [State.writeStatus, hv] <;> rfl
  case h_5 _ h8 h12 h16 => rw [if_neg h8, if_neg h12, if_neg fun e => h16 e.1]

/-! ### Settlements -/

/-- Settles O9: a command writes RESULT, RDATA, PEND, slots and host memory only. -/
theorem commandRegisterFrame : Obligations.CommandRegisterFrame := by
  intro i s t h
  rw [exec_shape h]
  exact ⟨rfl, rfl, rfl, rfl, rfl, rfl, rfl, rfl, rfl, rfl, rfl, rfl, rfl⟩

/-- Settles O59: the slot's contents are not among what the window and the other commands read. -/
theorem slotContentsStayInside : Obligations.SlotContentsStayInside := by
  intro s g x hx
  refine ⟨readWindow_setSlot s g x, fun i t u hi ht hu => ?_⟩
  obtain ⟨t', u', et, eu, same, result, rdata⟩ := (alike_setSlot hx hi).sameEnd_exec
  cases ht.symm.trans et
  cases hu.symm.trans eu
  exact ⟨same.mem, result, rdata, same.slots⟩

/-- Settles O5: PEND = 1 and a legal word make the engine's turn `exec` and the settling of races. -/
theorem stepRunsDecodedCommand : Obligations.StepRunsDecodedCommand := by
  intro s rest i hn hp hd
  have run : State.runPending { s with schedule := rest } = exec i { s with schedule := rest } := by
    simp only [State.runPending, hd]
  have hstep := (step_of_engineNext hn hp).trans (congrArg _ run)
  refine ⟨hstep, fun hr => ?_⟩
  obtain ⟨t, ht⟩ := exec_next i { s with schedule := rest }
  have raced : t.raced = [] := by rw [exec_shape ht]; exact hr
  rw [hstep, ht, mapNext, settleRaces_of_raced_nil raced]

/-- Settles O6. -/
theorem idleEngineKeepsEverything : Obligations.IdleEngineKeepsEverything := by
  intro s rest hs hp
  simp [step, hs, State.engineTurn, hp]

/-- Settles O7: no command stops, and each has the shape that clears PEND. -/
theorem everyCommandCompletes : Obligations.EveryCommandCompletes := by
  intro i s
  obtain ⟨t, ht⟩ := exec_next i s
  exact ⟨t, ht, by rw [exec_shape ht]⟩

/-- Settles O42. -/
theorem windowReadValues : Obligations.WindowReadValues := by
  refine fun s => ⟨rfl, rfl, rfl, rfl, rfl, rfl, (by decide : capsWord = 0x704#32), fun off h => ?_⟩
  unfold State.readWindow
  split
  case h_8 => rfl
  all_goals omega

/-- Settles O43: STATUS is one of 24 words, by PEND, DROPPED and RESULT. -/
theorem statusFields : Obligations.StatusFields := by
  intro s
  unfold State.statusWord
  cases s.pend <;> cases s.dropped <;> cases s.result <;> decide

/-- Settles O44. -/
theorem windowReadHasNoSideEffect : Obligations.WindowReadHasNoSideEffect := by
  intro s k off h rest turns hn ha hw
  rw [step_of_hostNext hn, winRead_aligned ha hw]
  rfl

/-- Settles O45. -/
theorem idleCmdWriteIsAccepted : Obligations.IdleCmdWriteIsAccepted := by
  intro s k h v rest turns hn hp
  rw [step_of_hostNext hn, winWrite_aligned rfl (by omega)]
  simp [State.writeWindow, State.writeCmd, hp, State.accept, State.setHost]

/-- Settles O46. -/
theorem busyCmdWriteIsDropped : Obligations.BusyCmdWriteIsDropped := by
  intro s k h v rest turns hn hp
  rw [step_of_hostNext hn, winWrite_aligned rfl (by omega)]
  simp [State.writeWindow, State.writeCmd, hp, State.setHost]

/-- Settles O47. -/
theorem otherWindowWrites : Obligations.OtherWindowWrites := by
  intro s k off h v rest turns hn ha hw hc
  rw [step_of_hostNext hn, winWrite_aligned ha hw, writeWindow_not_cmd _ _ hc]
  rfl

/-- Settles O48: neither access passes the test for an aligned 32-bit access, and a byte access inside the window is
not one. -/
theorem misalignedWindowAccessRefused : Obligations.MisalignedWindowAccessRefused := by
  intro s k off width h v b st rest turns hn hst
  rw [step_of_hostNext hn]
  rcases hst with ⟨hst, hbad⟩ | ⟨hst, hoff⟩
  · have ha : ¬ alignedWindowAccess off width := fun ⟨hw, ho, _⟩ => hbad.elim (· hw) (· ho)
    rcases hst with rfl | rfl <;> exact if_neg ha
  · have hw : State.inWindow { s with schedule := turns } (s.plat.base + off) = true := by
      simpa [State.inWindow] using hoff
    rcases hst with rfl | rfl <;> exact if_pos hw

/-- Settles O50: a command reads the latched arguments only, and carries ADDR and LEN along. -/
theorem pendingCommandUsesLatch : Obligations.PendingCommandUsesLatch := by
  intro i s t a n ht
  obtain ⟨t', u, et, eu, same, result, rdata⟩ := (alike_addr_len i s a n).sameEnd_exec
  cases ht.symm.trans et
  have slots : u.slots = t.slots := State.slots_ext fun h h1 _ => same.slots h (by omega)
  rw [eu, exec_shape eu, exec_shape ht, same.mem, result, rdata, slots]

end Sys2Proof.Machine
end

section
/-! PROOFS. What each command moves to and from host memory, the slot it writes, and the hosts' own accesses to memory
(spec 20). -/

namespace Sys2Proof.Machine

/-! ### What a command stores -/

/-- The slot an EXPORT reads holds a full buffer, so its image has IMAGE_SIZE bytes; nothing for other commands. -/
def State.exportsFullBuffer (s : State) (i : Instr) : Prop :=
  ∀ F g, i = .exportCtx F g → (s.slot g).dc.buf.length = F.block

theorem exportsFullBuffer_exportCtx {s : State} {F : Family} {g : Nat} (hb : (s.slot g).dc.buf.length = F.block) :
    s.exportsFullBuffer (.exportCtx F g) := by
  rintro F' g' ⟨⟩
  exact hb

theorem exportsFullBuffer_of_ne {s : State} {i : Instr} (hi : ∀ F g, i ≠ .exportCtx F g) : s.exportsFullBuffer i :=
  fun F g e => absurd e (hi F g)

/-- A command leaves host memory alone, or is a storing one and writes one string from the latched address on, as many
bytes as it moves (R90). -/
theorem exec_stores {i : Instr} {s t : State} (h : exec i s = .next t) :
    t.mem = s.mem ∨ transferDir i = some .write ∧ ∃ bs, t.mem = Memory.writeRange s.mem s.opAddr bs ∧
      (s.exportsFullBuffer i → bs.length = transferWidth i s.opLen) := by
  rcases exec_cases h with ⟨r, -, rfl⟩ | ⟨-, e⟩
  · exact .inl rfl
  cases i <;> simp only [Effect] at e
  case alloc | hmacInit => obtain ⟨g, -, rfl⟩ := e; exact .inl (by simp)
  case importCtx => obtain ⟨dc, ph, -, rfl⟩ := e; exact .inl (by simp)
  case finalize F g =>
    subst e
    exact .inr ⟨rfl, ser F _, State.setSlot_mem _ _ _, fun _ => length_ser _ _⟩
  case exportCtx F g =>
    subst e
    exact .inr ⟨rfl, _, rfl, fun hb => length_image _ _ _ (hb F g rfl)⟩
  case hmacFinalize F g =>
    obtain ⟨_, _, ost, -, -, -, rfl⟩ := e
    exact .inr ⟨rfl, ser F ost, State.setSlot_mem _ _ _, fun _ => length_ser _ _⟩
  all_goals subst e; exact .inl (by simp)

/-- FINALIZE, EXPORT and HMAC_FINALIZE are the storing commands (R90). -/
theorem transferDir_eq_write {i : Instr} : transferDir i = some .write ↔
    ∃ F h, i = .finalize F h ∨ i = .exportCtx F h ∨ i = .hmacFinalize F h := by
  cases i <;> simp [transferDir]

/-- Outside the range it moves, no command changes what host memory reads (R90). -/
theorem exec_read_outside {i : Instr} {s t : State} (h : exec i s = .next t)
    (hb : s.exportsFullBuffer i) {x : Nat}
    (hx : x < s.opAddr ∨ s.opAddr + transferWidth i s.opLen ≤ x) : Memory.read t.mem x = Memory.read s.mem x := by
  rcases exec_stores h with e | ⟨-, bs, e, hl⟩
  · rw [e]
  · rw [e, Memory.read_writeRange_outside _ _ _ _ (by rwa [hl hb])]

/-! ### Which slot a command writes -/

/-- A DMA write in front of a slot write does not show in the slot bank. -/
theorem setSlot_storeBytes_slots (s : State) (a : Nat) (bs : List Byte) (h : Nat) (x : Slot) :
    ((s.storeBytes a bs).setSlot h x).slots = (s.setSlot h x).slots := by
  cases h <;> rfl

/-- A command leaves the slot bank alone, or writes one slot: the one it names, or the one ALLOC or HMAC_INIT returns
in RDATA (R102). -/
theorem exec_writes_slot {i : Instr} {s t : State} (h : exec i s = .next t) :
    t.slots = s.slots ∨ ∃ g x, t.slots = (s.setSlot g x).slots ∧
      (i.handle? = some g ∧ (∀ F, i ≠ .exportCtx F g) ∨
        (∃ F, i = .alloc F ∨ i = .hmacInit F) ∧ t.rdata.toNat = g) := by
  rcases exec_cases h with ⟨r, -, rfl⟩ | ⟨-, e⟩
  · exact .inl rfl
  have returned : ∀ {g}, s.lowestFree g → (BitVec.ofNat 32 g).toNat = g := fun {g} hg => by
    have : g ≤ 4 := hg.2.1
    exact Nat.mod_eq_of_lt (by omega)
  cases i <;> simp only [Effect] at e
  case ctxsize | exportCtx => subst e; exact .inl rfl
  case alloc F => obtain ⟨g, hg, rfl⟩ := e; exact .inr ⟨g, _, rfl, .inr ⟨⟨F, .inl rfl⟩, returned hg⟩⟩
  case hmacInit F => obtain ⟨g, hg, rfl⟩ := e; exact .inr ⟨g, _, rfl, .inr ⟨⟨F, .inr rfl⟩, returned hg⟩⟩
  case importCtx F g => obtain ⟨dc, ph, -, rfl⟩ := e; exact .inr ⟨g, _, rfl, .inl ⟨rfl, by simp⟩⟩
  case finalize F g => subst e; exact .inr ⟨g, _, setSlot_storeBytes_slots .., .inl ⟨rfl, by simp⟩⟩
  case hmacFinalize F g =>
    obtain ⟨_, _, _, -, -, -, rfl⟩ := e
    exact .inr ⟨g, _, setSlot_storeBytes_slots .., .inl ⟨rfl, by simp⟩⟩
  all_goals subst e; exact .inr ⟨_, _, rfl, .inl ⟨rfl, by simp⟩⟩

/-! ### Illegal ranges -/

theorem chkRange_eq_some {a n : Nat} (hn : 0 < n) (ha : a = 0 ∨ Config.memSize < a + n) :
    chkRange a n = some .invalidArguments :=
  if_pos ⟨hn, ha⟩

/-- When the checks in front pass, the first failure is that of the rest (R272). -/
theorem firstFailure_append_of_none {a b : List (Option Result)} (ha : firstFailure a = none) :
    firstFailure (a ++ b) = firstFailure b := by
  unfold firstFailure at *
  rw [List.findSome?_append, ha, Option.none_or]

/-- A slot of the right kind and family passes the first two checks (R272). -/
theorem firstFailure_slotChecks {s : State} {h : Nat} {k : Kind} {F : Family} (hn : s.names h k F)
    (cs : List (Option Result)) : firstFailure (s.chkCtx h k :: s.chkFam h F :: cs) = firstFailure cs := by
  rw [chkCtx_of_names hn, chkFam_of_names hn, firstFailure_none_cons, firstFailure_none_cons]

/-- In the right phase it passes the third as well (R272). -/
theorem firstFailure_phaseChecks {s : State} {h : Nat} {k : Kind} {F : Family} {S : List Phase} (hn : s.names h k F)
    (hp : (s.slot h).phase ∈ S) : firstFailure [s.chkCtx h k, s.chkFam h F, s.chkPhase h S] = none := by
  rw [firstFailure_slotChecks hn, chkPhase_eq_none.2 hp, firstFailure_none_cons, firstFailure_nil]

/-- A command whose checks before ChkRange pass, and whose range is illegal, raises InvalidArguments before MemAdmit is
asked (R83, R272). -/
theorem exec_illegalRange {i : Instr} {s : State} {d : Dir} (before : List (Option Result))
    (hc : s.checks i = before ++ s.rangeChecks d (transferWidth i s.opLen)) (hb : firstFailure before = none)
    (hn : 0 < transferWidth i s.opLen)
    (ha : s.opAddr = 0 ∨ Config.memSize < s.opAddr + transferWidth i s.opLen) :
    exec i s = .next (s.raise .invalidArguments) := by
  refine exec_fail ?_
  rw [hc, firstFailure_append_of_none hb, State.rangeChecks, chkRange_eq_some hn ha, firstFailure_some_cons]

/-! ### Host accesses outside the pending DMA range -/

/-- An address that no pending legal word's range holds is not in the pending DMA range (R307). -/
theorem inDmaRange_eq_false {s : State} {x : Nat} (h : s.pend = true → ∀ i, decode s.lcmd = .ok i →
    x < s.opAddr ∨ s.opAddr + transferWidth i s.opLen ≤ x) : s.inDmaRange x = false := by
  unfold State.inDmaRange
  cases hp : s.pend with
  | false => rfl
  | true =>
    cases hd : decode s.lcmd with
    | error e => rfl
    | ok i =>
      have := h hp i hd
      simp only [Bool.true_and, Bool.and_eq_false_imp, Bool.and_eq_true, decide_eq_true_eq, decide_eq_false_iff_not]
      omega

/-- A byte access outside the window and inside host memory goes on (R80). -/
theorem onMemory_eq {s : State} {x : Nat} (hw : s.inWindow x = false) (hx : x < Config.memSize)
    (k : Host.Outcome State Fault Refusal) : s.onMemory x k = k := by
  simp [State.onMemory, hw, hx]

theorem hostLoad_free {s : State} {x : Nat} (h : s.inDmaRange x = false) :
    s.hostLoad x = (Memory.read s.mem x, s) := by
  simp [State.hostLoad, h]

theorem hostStore_free {s : State} {x : Nat} (h : s.inDmaRange x = false) (b : Byte) :
    s.hostStore x b = { s with mem := Memory.put s.mem x b } := by
  simp [State.hostStore, h]

/-! ### Settlements -/

/-- Settles O10: a command that is not a storing one leaves host memory alone. -/
theorem nonStoringMemoryFrame : Obligations.NonStoringMemoryFrame := by
  intro i s t hi h x
  rcases exec_stores h with e | ⟨hd, -⟩
  · rw [e]
  · obtain ⟨F, g, hw⟩ := transferDir_eq_write.1 hd
    exact absurd hw (by simp [hi F g])

/-- Settles O11: the bytes each of the three commands moves are those its statement names. -/
theorem storingMemoryFrame : Obligations.StoringMemoryFrame := by
  rintro F h s t a n rfl hst x hx
  rcases hst with ⟨e, rfl⟩ | ⟨e, rfl⟩ | ⟨e, rfl, hb⟩
  · exact exec_read_outside e (exportsFullBuffer_of_ne (by simp)) hx
  · exact exec_read_outside e (exportsFullBuffer_of_ne (by simp)) hx
  · exact exec_read_outside e (exportsFullBuffer_exportCtx hb) hx

/-- Settles O12: the one slot a command may write is none of those the statement speaks of. -/
theorem otherSlotsUnchanged : Obligations.OtherSlotsUnchanged := by
  intro i s t h g hnamed hreturned
  rcases exec_writes_slot h with e | ⟨k, x, e, hk⟩
  · exact State.slot_congr e g
  have hg : g ≠ k := by
    rintro rfl
    rcases hk with ⟨hh, hexp⟩ | ⟨⟨F, hi⟩, hr⟩
    · obtain ⟨F, hi⟩ := hnamed hh
      exact hexp F hi
    · exact hreturned F hi hr
  rw [State.slot_congr e, State.slot_setSlot_ne _ _ hg]

/-- Settles O52: outside the pending DMA range a host access neither races nor adds a fault. -/
theorem freeMemoryAccess : Obligations.FreeMemoryAccess := by
  intro s k x h b rest turns hw hx hfree
  have hr : State.inDmaRange { s with schedule := turns } x = false := inDmaRange_eq_false hfree
  have hm := onMemory_eq (s := { s with schedule := turns }) hw hx
  constructor
  · intro hn
    rw [step_of_hostNext hn, State.runStmt, hm, hostLoad_free hr]
    rfl
  · intro hn
    refine ⟨Memory.put s.mem x b, ?_, Memory.read_put_same _ _ _, fun y hy => Memory.read_put_ne _ _ _ _ hy⟩
    rw [step_of_hostNext hn, State.runStmt, hm, hostStore_free hr]
    rfl

/-- Settles O16: ChkRange is the first check to fail. -/
theorem illegalRangeRaisesInvalidArguments : Obligations.IllegalRangeRaisesInvalidArguments := by
  rintro F h s i hi hn ha
  rcases hi with ⟨hi, hs, hp⟩ | ⟨rfl, hs, hp⟩ | ⟨rfl, hs⟩ | rfl | ⟨hi, hs, hp⟩
  · rcases hi with rfl | rfl <;>
      exact exec_illegalRange _ rfl (firstFailure_phaseChecks hs (List.mem_singleton.2 hp)) hn ha
  · exact exec_illegalRange _ rfl (firstFailure_phaseChecks hs (mem_active_finalized.2 hp)) hn ha
  · exact exec_illegalRange _ rfl (firstFailure_slotChecks hs []) hn ha
  · exact exec_illegalRange [] rfl firstFailure_nil hn ha
  · rcases hi with rfl | rfl <;>
      exact exec_illegalRange _ rfl (firstFailure_phaseChecks hs (List.mem_singleton.2 hp)) hn ha

end Sys2Proof.Machine
end

section
/-! PROOFS. The command word (spec 30): its fields, what the decoder accepts, and the round trips; the host's control
statements (30 R121, R122). -/

namespace Sys2Proof

/-! ### The fields of a word -/

/-- The FAMILY bit read as a code (R110, R112). -/
theorem code_famField (v : Word) : (famField v).code = (v.extractLsb' 8 1).toNat := by
  have bit : (v.extractLsb' 8 1).getLsbD 0 = v.getLsbD 8 := by simp
  unfold famField
  rw [← bit]
  generalize v.extractLsb' 8 1 = f
  revert f
  decide

theorem Family.code_inj : ∀ {F G : Family}, F.code = G.code → F = G
  | .f256, .f256, _ => rfl
  | .f512, .f512, _ => rfl

/-- The three parts of an assembled word do not overlap (R120). -/
theorem toNat_packWord {op F h : Nat} (ho : op < 2 ^ 8) (hF : F < 2) (hh : h < 2 ^ 8) :
    (packWord op F h).toNat = op + F * 2 ^ 8 + h * 2 ^ 16 := by
  have low : op ||| F <<< 8 = F <<< 8 + op := by rw [Nat.or_comm, Nat.shiftLeft_add_eq_or_of_lt ho]
  have high : F <<< 8 + op ||| h <<< 16 = h <<< 16 + (F <<< 8 + op) :=
    (Nat.or_comm _ _).trans (Nat.shiftLeft_add_eq_or_of_lt (by omega) h).symm
  simp (disch := omega) only [packWord, BitVec.toNat_or, BitVec.toNat_shiftLeft, BitVec.toNat_ofNat, Nat.mod_eq_of_lt,
    low, high]
  omega

/-- An assembled word has its parts as fields, and zero in both reserved ones (R110, R120). -/
theorem fields_packWord {op F h : Nat} (ho : op < 2 ^ 8) (hF : F < 2) (hh : h < 2 ^ 8) :
    rsv0Field (packWord op F h) = 0 ∧ rsv1Field (packWord op F h) = 0 ∧ opField (packWord op F h) = op ∧
    (famField (packWord op F h)).code = F ∧ ctxField (packWord op F h) = h := by
  rw [code_famField]
  simp only [rsv0Field, rsv1Field, opField, ctxField, BitVec.extractLsb'_toNat, toNat_packWord ho hF hh,
    Nat.shiftRight_eq_div_pow]
  omega

/-! ### Masking a word -/

/-- The mask of the `n` bits from bit `k` on leaves that field, in its place. -/
theorem and_fieldMask (v : Word) (k n : Nat) :
    v &&& (BitVec.allOnes n).setWidth 32 <<< k = BitVec.ofNat 32 (v.extractLsb' k n).toNat <<< k := by
  rw [BitVec.ofNat_toNat]
  apply BitVec.eq_of_getLsbD_eq
  intro j hj
  by_cases hk : j < k
  · simp [hk]
  · obtain ⟨m, rfl⟩ := Nat.exists_eq_add_of_le (Nat.le_of_not_lt hk)
    by_cases hn : m < n <;> simp [hn, hj]

theorem and_opcodeMask (v : Word) : v &&& 0xFF#32 = BitVec.ofNat 32 (opField v) :=
  (and_fieldMask v 0 8).trans (BitVec.shiftLeft_zero _)

theorem and_familyMask (v : Word) : v &&& 0x100#32 = BitVec.ofNat 32 (famField v).code <<< 8 := by
  rw [code_famField]
  exact and_fieldMask v 8 1

theorem and_ctxMask (v : Word) : v &&& 0xFF0000#32 = BitVec.ofNat 32 (ctxField v) <<< 16 := and_fieldMask v 16 8

/-- The legality mask leaves the opcode and the two reserved fields (R116). -/
theorem and_legalMask (v : Word) : v &&& legalMask =
    BitVec.ofNat 32 (opField v) ||| BitVec.ofNat 32 (rsv0Field v) <<< 9 ||| BitVec.ofNat 32 (rsv1Field v) <<< 24 := by
  have parts : legalMask =
      0xFF#32 ||| (BitVec.allOnes 7).setWidth 32 <<< 9 ||| (BitVec.allOnes 8).setWidth 32 <<< 24 := by decide
  rw [parts, BitVec.and_or_distrib_left, BitVec.and_or_distrib_left, and_opcodeMask, and_fieldMask, and_fieldMask]
  rfl

/-- A field inside a mask's ones survives the mask. -/
theorem extractLsb'_and_of_allOnes {m : Word} {k n : Nat} (h : m.extractLsb' k n = BitVec.allOnes n) (v : Word) :
    (v &&& m).extractLsb' k n = v.extractLsb' k n := by
  rw [BitVec.extractLsb'_and, h, BitVec.and_allOnes]

/-- A word is its opcode under the legality mask exactly when its reserved fields are zero (R116). -/
theorem and_legalMask_eq_iff {v : Word} {op : Nat} (ho : op < 2 ^ 8) :
    v &&& legalMask = BitVec.ofNat 32 op ↔ (rsv0Field v = 0 ∧ rsv1Field v = 0) ∧ opField v = op := by
  constructor
  · intro e
    have field {k n : Nat} (h : legalMask.extractLsb' k n = BitVec.allOnes n) :
        (v.extractLsb' k n).toNat = op / 2 ^ k % 2 ^ n := by
      rw [← extractLsb'_and_of_allOnes h v, e, BitVec.extractLsb'_toNat, BitVec.toNat_ofNat,
        Nat.mod_eq_of_lt (a := op) (by omega), Nat.shiftRight_eq_div_pow]
    rw [rsv0Field, rsv1Field, opField, field (by decide), field (by decide), field (by decide)]
    omega
  · rintro ⟨⟨h0, h1⟩, rfl⟩
    simp [and_legalMask, h0, h1]

/-! ### What the decoder accepts -/

/-- The opcode map gives exactly the command with that opcode, the family it uses and the handle it uses. -/
theorem decodeOp_eq_ok_iff {op : Nat} {F : Family} {h : Nat} {i : Instr} : decodeOp op F h = .ok i ↔
    i.opcode = op ∧ (∀ G ∈ i.family?, G = F) ∧ (∀ g ∈ i.handle?, g = h) := by
  constructor
  · intro e
    unfold decodeOp at e
    split at e <;> cases e <;> simp [Instr.opcode, Instr.family?, Instr.handle?]
  · rintro ⟨rfl, hF, hh⟩
    cases i <;> simp_all [Instr.opcode, Instr.family?, Instr.handle?, decodeOp]

/-- The words that decode to a command, by field (R119). -/
theorem decode_eq_ok_iff {v : Word} {i : Instr} : decode v = .ok i ↔ (rsv0Field v = 0 ∧ rsv1Field v = 0) ∧
    i.opcode = opField v ∧ (∀ F ∈ i.family?, F = famField v) ∧ (∀ h ∈ i.handle?, h = ctxField v) := by
  rw [← decodeOp_eq_ok_iff, decode]
  split
  case isTrue h => exact ⟨nofun, fun e => absurd e.1 (by omega)⟩
  case isFalse h => exact ⟨fun e => ⟨by omega, e⟩, And.right⟩

theorem opcode_range (i : Instr) : 0x01 ≤ i.opcode ∧ i.opcode ≤ 0x0C := by
  cases i <;> simp [Instr.opcode]

/-- Each opcode of the table has a command (R111). -/
theorem decodeOp_ok {op : Nat} (h1 : 0x01 ≤ op) (h2 : op ≤ 0x0C) (F : Family) (h : Nat) :
    ∃ i, decodeOp op F h = .ok i := by
  interval_cases op <;> exact ⟨_, rfl⟩

/-- A word decodes to a command of opcode `op` exactly when its reserved fields are zero and its opcode is `op`. -/
theorem exists_decode_opcode_iff {v : Word} {op : Nat} (h1 : 0x01 ≤ op) (h2 : op ≤ 0x0C) :
    (∃ i, decode v = .ok i ∧ i.opcode = op) ↔ (rsv0Field v = 0 ∧ rsv1Field v = 0) ∧ opField v = op := by
  constructor
  · rintro ⟨i, e, rfl⟩
    obtain ⟨rsv, hop, -⟩ := decode_eq_ok_iff.1 e
    exact ⟨rsv, hop.symm⟩
  · rintro ⟨rsv, rfl⟩
    obtain ⟨i, e⟩ := decodeOp_ok h1 h2 (famField v) (ctxField v)
    have fields := decodeOp_eq_ok_iff.1 e
    exact ⟨i, decode_eq_ok_iff.2 ⟨rsv, fields⟩, fields.1⟩

/-- The illegal words, by field (R116). -/
theorem exists_decode_error_iff {v : Word} : (∃ e, decode v = .error e) ↔
    (rsv0Field v ≠ 0 ∨ rsv1Field v ≠ 0) ∨ opField v = 0x00 ∨ 0x0D ≤ opField v := by
  cases hd : decode v with
  | ok i =>
    obtain ⟨rsv, hop, -⟩ := decode_eq_ok_iff.1 hd
    have := opcode_range i
    simp only [reduceCtorEq, exists_false, false_iff]
    omega
  | error e =>
    simp only [Except.error.injEq, exists_eq', true_iff]
    by_contra legal
    obtain ⟨i, hi, -⟩ := (exists_decode_opcode_iff (op := opField v) (by omega) (by omega)).2 ⟨by omega, rfl⟩
    cases hi.symm.trans hd

/-- The word of a well-formed command, by field (R110, R120). -/
theorem fields_encode {i : Instr} (w : i.WellFormed) : (rsv0Field (encode i) = 0 ∧ rsv1Field (encode i) = 0) ∧
    i.opcode = opField (encode i) ∧ (∀ F ∈ i.family?, F = famField (encode i)) ∧
    (∀ h ∈ i.handle?, h = ctxField (encode i)) := by
  obtain ⟨h0, h1, hop, hfam, hctx⟩ :=
    fields_packWord (Laws.opcode_lt i) (Laws.familyCode_lt i) (Laws.handle_lt w)
  refine ⟨⟨h0, h1⟩, hop.symm, fun F hF => Family.code_inj ?_, fun h hh => ?_⟩
  · rw [encode, hfam, Option.mem_def.1 hF]; rfl
  · rw [encode, hctx, Option.mem_def.1 hh]; rfl

/-! ### Settlements -/

/-- Settles O2: the word's fields are those the decoder asks for. -/
theorem decodeOfEncode : Obligations.DecodeOfEncode :=
  fun _ w => decode_eq_ok_iff.2 (fields_encode w)

/-- Settles O3: each part of the encoded word is the word's own field, or absent. -/
theorem encodeOfDecode : Obligations.EncodeOfDecode := by
  intro v i hd
  obtain ⟨-, hop, hfam, hctx⟩ := decode_eq_ok_iff.1 hd
  refine ⟨fun h hh => ?_, ?_⟩
  · rw [hctx h hh]
    exact (v.extractLsb' 16 8).isLt
  rw [BitVec.and_or_distrib_left, BitVec.and_or_distrib_left, encode, packWord, hop, and_opcodeMask]
  congr 2
  · cases hF : i.family? with
    | none => simp
    | some F => simp [hfam F hF, and_familyMask]
  · cases hh : i.handle? with
    | none => simp
    | some h => simp [hctx h hh, and_ctxMask]

/-- Settles O1: each word is run through the decoder. -/
theorem listedWordsDecode : Obligations.ListedWordsDecode := by
  unfold Obligations.ListedWordsDecode
  decide

end Sys2Proof

namespace Sys2Proof.Machine

/-! ### A pending illegal word -/

/-- An illegal word has no DMA range (R307). -/
theorem inDmaRange_illegal {s : State} {e : Illegal} (hd : decode s.lcmd = .error e) (x : Nat) :
    s.inDmaRange x = false := by
  simp [State.inDmaRange, hd]

/-- The engine's turn on a pending illegal word that no host raced for raises IllegalCommand (R116, R273). -/
theorem step_illegal {s : State} {turns : List Turn} {e : Illegal} (hn : s.engineNext turns) (hp : s.pend = true)
    (hr : s.raced = []) (hd : decode s.lcmd = .error e) :
    step s = .next (State.raise { s with schedule := turns } .illegalCommand) := by
  have run : State.runPending { s with schedule := turns } =
      .next (State.raise { s with schedule := turns } .illegalCommand) := by
    simp only [State.runPending, hd]
  rw [step_of_engineNext hn hp, run, mapNext, settleRaces_of_raced_nil (by simpa using hr)]

/-! ### What a host reads in STATUS -/

/-- BUSY is PEND (R36). -/
@[simp] theorem statusWord_busy (s : State) : s.statusWord.getLsbD 0 = s.pend := by
  obtain ⟨busy, -⟩ := statusFields s
  exact busy

/-- RESULT is the code of the last result (R36, R271). -/
@[simp] theorem statusWord_result (s : State) : (s.statusWord.extractLsb' 4 4).toNat = s.result.code := by
  obtain ⟨-, -, -, -, code⟩ := statusFields s
  exact code

/-- A write of CMD on an idle engine is accepted (R51). -/
theorem writeCmd_idle {s : State} (hp : s.pend = false) (v : Word) : s.writeCmd v = s.accept v := by
  simp [State.writeCmd, hp]

/-- A write of CMD on a busy engine is dropped (R52). -/
theorem writeCmd_busy {s : State} (hp : s.pend = true) (v : Word) : s.writeCmd v = { s with dropped := true } := by
  simp [State.writeCmd, hp]

/-! ### Settlements -/

/-- Settles O4: the illegal words by field, an illegal word raising IllegalCommand with no race to settle, and the
mask that leaves the opcode and the reserved fields. -/
theorem illegalWordsExactly : Obligations.IllegalWordsExactly := by
  refine ⟨fun v => ?_, fun s rest e hn hp hraced hd => ?_, fun v op h1 h2 => ?_⟩
  · rw [exists_decode_error_iff]
    simp only [rsv0Field, rsv1Field, opField, ne_eq, BitVec.toNat_eq, BitVec.toNat_ofNat, Nat.zero_mod]
  · have nil : s.raced = [] := List.eq_nil_iff_forall_not_mem.2 fun a ha => by
      simpa [inDmaRange_illegal hd] using hraced a ha
    exact step_illegal hn hp nil hd
  · exact (exists_decode_opcode_iff h1 h2).trans (and_legalMask_eq_iff (by omega)).symm

/-- Settles O49: a host's turn is its statement; WAIT and EXPECT go by the fields of STATUS, and a command on the kept
handle is a write of CMD. -/
theorem hostControlStatements : Obligations.HostControlStatements := by
  refine fun s k r h i rest turns => ⟨fun hn => ?wait, fun hn => ?expect, step_of_hostNext, fun hn hp => ?idle,
    fun hn hp => ?busy⟩
  all_goals rw [step_of_hostNext hn, State.runStmt]
  case wait =>
    rw [statusWord_busy]
    rfl
  case expect =>
    rw [statusWord_result]
    rfl
  case idle =>
    rw [writeCmd_idle (s := { s with schedule := turns }) hp]
    rfl
  case busy =>
    rw [writeCmd_busy (s := { s with schedule := turns }) hp]
    rfl

end Sys2Proof.Machine
end

section
/-! PROOFS. The digest engine (spec 40): Absorb by bytes and in parts, the padding and the length field, and INIT,
UPDATE and FINALIZE on the machine. -/

namespace Sys2Proof.Machine

/-! ### Absorbing in parts -/

/-- A context that meets the invariant is a packed one with less than a block pending. -/
theorem DigestCtx.Inv.exists_pack {F : Family} {dc : DigestCtx} (h : dc.Inv F) :
    ∃ st p tl, p.length < F.block ∧ dc = pack F st p tl := by
  refine ⟨_, _, _, ?_, h.eq_pack⟩
  exact Nat.lt_of_le_of_lt (List.length_take_le _ _) h.blLt

@[simp] theorem pack_state (F : Family) (st : Words 64) (p : List Byte) (tl : Counter) :
    (pack F st p tl).state = st := rfl

@[simp] theorem pack_bl (F : Family) (st : Words 64) (p : List Byte) (tl : Counter) :
    (pack F st p tl).bl = p.length := rfl

@[simp] theorem pack_tl (F : Family) (st : Words 64) (p : List Byte) (tl : Counter) :
    (pack F st p tl).tl = tl := rfl

/-- Overwriting behind the pending bytes of a packed context. -/
theorem splice_pack_buf (F : Family) (st : Words 64) (p m : List Byte) (tl : Counter) :
    splice (pack F st p tl).buf p.length m = p ++ m ++ zeros (F.block - (p.length + m.length)) := by
  rw [← Nat.sub_sub]
  exact splice_padded p m _

/-- The bytes a packed context has pending. -/
theorem pack_pending (F : Family) (st : Words 64) (p : List Byte) (tl : Counter) :
    (pack F st p tl).buf.take (pack F st p tl).bl = p := by
  simp [pack]

/-- Cutting the whole blocks off a string leaves its length modulo BLOCK. -/
theorem length_drop_blocks (F : Family) (m : List Byte) :
    (m.drop (m.length / F.block * F.block)).length = m.length % F.block := by
  rw [List.length_drop, Nat.mul_comm, ← Nat.mod_def]

theorem length_drop_blocks_lt (F : Family) (m : List Byte) :
    (m.drop (m.length / F.block * F.block)).length < F.block := by
  rw [length_drop_blocks]
  exact Nat.mod_lt _ (block_pos F)

/-- Cutting the whole blocks off `m` and then those off the rest followed by `b` is cutting those off `m ++ b`. -/
theorem blocks_append (F : Family) (m b : List Byte) :
    (m ++ b).length / F.block = m.length / F.block + (m.drop (m.length / F.block * F.block) ++ b).length / F.block := by
  have hdm := Nat.div_add_mod' m.length F.block
  have e : (m ++ b).length = (m.drop (m.length / F.block * F.block) ++ b).length + m.length / F.block * F.block := by
    rw [List.length_append, List.length_append, length_drop_blocks]
    omega
  rw [e, Nat.add_mul_div_right _ _ (block_pos F), Nat.add_comm]

/-- Absorbing `a` and then `b` is absorbing `a ++ b` (R144). -/
theorem absorb_append (P : Prims) {F : Family} {dc : DigestCtx} (h : dc.Inv F) (a b : List Byte) :
    absorb P F (absorb P F dc a) b = absorb P F dc (a ++ b) := by
  obtain ⟨st, p, tl, hp, rfl⟩ := h.exists_pack
  have hk : (p ++ a).length / F.block * F.block ≤ (p ++ a).length := Nat.div_mul_le_self _ _
  have hcount := blocks_append F (p ++ a) b
  have hrest : (p ++ a ++ b).drop ((p ++ a).length / F.block * F.block) =
      (p ++ a).drop ((p ++ a).length / F.block * F.block) ++ b := List.drop_append_of_le_length hk
  have htl : tl + BitVec.ofNat Config.ctrBits a.length + BitVec.ofNat Config.ctrBits b.length =
      tl + BitVec.ofNat Config.ctrBits (a ++ b).length := by
    rw [List.length_append, BitVec.ofNat_add, BitVec.add_assoc]
  rw [absorb_pack P F st p a tl hp, absorb_pack _ _ _ _ _ _ (length_drop_blocks_lt F _), absorb_pack P F st p _ tl hp,
    ← List.append_assoc p a b, hcount, htl, compressBlocks_add, compressBlocks_append _ _ _ _ _ _ hk, Nat.add_mul,
    ← List.drop_drop, hrest]

/-! ### Absorbing byte by byte -/

/-- The one-byte step does not look at the counter. -/
theorem byteStep_with_tl (P : Prims) (F : Family) (dc : DigestCtx) (tl : Counter) (x : Byte) :
    byteStep P F { dc with tl := tl } x = { byteStep P F dc x with tl := tl } := by
  unfold byteStep
  split <;> rfl

/-- Absorbing one byte is the one-byte step, and counts it. -/
theorem absorb_singleton (P : Prims) {F : Family} {dc : DigestCtx} (h : dc.Inv F) (x : Byte) :
    absorb P F dc [x] = { byteStep P F dc x with tl := dc.tl + 1 } := by
  obtain ⟨st, p, tl, hp, rfl⟩ := h.exists_pack
  have hl : (p ++ [x]).length = p.length + 1 := List.length_append
  rw [absorb_pack P F st p [x] tl hp, hl, byteStep, pack_bl, splice_pack_buf, List.length_singleton]
  by_cases hfull : p.length + 1 = F.block
  · have htake : (p ++ [x]).take F.block = p ++ [x] := List.take_of_length_le (by omega)
    have hdrop : (p ++ [x]).drop F.block = [] := List.drop_eq_nil_of_le (by omega)
    simp [pack, hfull, Nat.div_self (block_pos F), compressBlocks, htake, hdrop, zeros]
  · have hdiv : (p.length + 1) / F.block = 0 := Nat.div_eq_of_lt (by omega)
    simp [pack, hfull, hdiv, compressBlocks]

/-- Absorb is the one-byte step for each byte in order, with the length added to the counter (R144). -/
theorem absorb_eq_foldl_byteStep (P : Prims) {F : Family} {dc : DigestCtx} (h : dc.Inv F) (m : List Byte) :
    absorb P F dc m = { m.foldl (byteStep P F) dc with tl := dc.tl + BitVec.ofNat Config.ctrBits m.length } := by
  induction m using List.reverseRecOn with
  | nil =>
    obtain ⟨st, p, tl, hp, rfl⟩ := h.exists_pack
    rw [absorb_pack P F st p [] tl hp, List.append_nil, Nat.div_eq_of_lt hp]
    simp [compressBlocks, pack]
  | append_singleton m x ih =>
    obtain ⟨-, -, -, hm⟩ := absorb_spec P h m
    rw [← absorb_append P h, absorb_singleton P hm, ih, byteStep_with_tl, List.foldl_concat, List.length_append,
      BitVec.ofNat_add, ← BitVec.add_assoc]
    rfl

/-! ### The length field -/

/-- Byte `k` from the right of the length field holds bits 8k to 8k + 7 of the bit count (R147). -/
theorem getElem?_lenField (F : Family) (tl : Counter) {k : Nat} (hk : k < F.lenLen) :
    (lenField F tl)[F.lenLen - 1 - k]? = some (BitVec.ofNat 8 ((tl.toNat <<< 3) >>> (8 * k))) := by
  have e : F.lenLen - 1 - (F.lenLen - 1 - k) = k := by omega
  rw [lenField, getElem?_beEnc (by omega), e, Nat.shiftLeft_eq]
  congr 1
  refine BitVec.eq_of_getLsbD_eq fun j hj => ?_
  have hlow : 8 * k + j < 8 * F.lenLen := by omega
  simp [BitVec.getLsbD_ofNat, Nat.testBit_shiftRight, Nat.testBit_mod_two_pow, hlow]

/-- Shifting left by 3 and then right by 8 or more is shifting right by the difference. -/
theorem shiftLeft_three_shiftRight (v : Nat) {k : Nat} (hk : 1 ≤ k) : (v <<< 3) >>> (8 * k) = v >>> (8 * k - 3) := by
  have e : 8 * k = 3 + (8 * k - 3) := by omega
  conv_lhs => rw [e, Nat.shiftRight_add, Nat.shiftLeft_shiftRight]

/-! ### The padding -/

/-- The zeros between the marker and the length field after `n` bytes of message (R146). -/
def padZeros (F : Family) (n : Nat) : Nat := (F.block - (n + 1 + F.lenLen) % F.block) % F.block

theorem padded_eq_padZeros (F : Family) (m : List Byte) : padded F m =
    m ++ [0x80#8] ++ zeros (padZeros F m.length) ++ lenField F (BitVec.ofNat Config.ctrBits m.length) := rfl

theorem padZeros_lt (F : Family) (n : Nat) : padZeros F n < F.block := Nat.mod_lt _ (block_pos F)

/-- Whole blocks in front do not change the padding. -/
theorem padZeros_mod (F : Family) (n : Nat) : padZeros F (n % F.block) = padZeros F n := by
  cases F <;> simp only [padZeros, Family.block, Family.lenLen] <;> omega

/-- The zeros that fill up one block, marker and length field included. -/
theorem padZeros_one_block {F : Family} {n : Nat} (h : n < F.block - F.lenLen) :
    padZeros F n = F.block - F.lenLen - (n + 1) := by
  cases F <;> simp only [padZeros, Family.block, Family.lenLen] at * <;> omega

/-- The zeros that fill up two blocks, when the length field does not fit in the first. -/
theorem padZeros_two_blocks {F : Family} {n : Nat} (h : F.block - F.lenLen ≤ n) (hn : n < F.block) :
    padZeros F n = (F.block - (n + 1)) + (F.block - F.lenLen) := by
  cases F <;> simp only [padZeros, Family.block, Family.lenLen] at * <;> omega

/-! ### The final blocks -/

/-- An extra block exactly when the length field does not fit behind the marker (R154). -/
theorem length_finalBlocks {F : Family} {dc : DigestCtx} (h : dc.bl < F.block) :
    (finalBlocks F dc).length = if dc.bl < F.block - F.lenLen then 1 else 2 := by
  have hL := lenLen_lt_block F
  unfold finalBlocks
  by_cases hs : dc.bl < F.block - F.lenLen
  · simp [hs, show ¬ F.block - dc.bl - 1 < F.lenLen by omega]
  · simp [hs, show F.block - dc.bl - 1 < F.lenLen by omega]

theorem zeros_add (m n : Nat) : zeros (m + n) = zeros m ++ zeros n := List.replicate_add ..

/-- Overwriting the last of the zeros that follow `p`. -/
theorem splice_last_zeros (p m : List Byte) (k : Nat) :
    splice (p ++ zeros (k + m.length)) (p.length + k) m = p ++ zeros k ++ m := by
  have e := splice_padded (p ++ zeros k) m m.length
  rwa [List.append_assoc p, ← zeros_add, List.length_append, length_zeros, Nat.sub_self, zeros, zeros, zeros,
    List.replicate_zero, List.append_nil] at e

/-- One final block: the pending bytes, the marker, zeros and the length field (R149). -/
theorem finalBlocks_pack_one {F : Family} {p : List Byte} (hp : p.length < F.block - F.lenLen) (st : Words 64)
    (tl : Counter) : finalBlocks F (pack F st p tl) =
      [p ++ [0x80#8] ++ zeros (padZeros F p.length) ++ lenField F tl] := by
  have hfit : ¬ F.block - p.length - 1 < F.lenLen := by omega
  have hz : F.block - (p.length + 1) = padZeros F p.length + F.lenLen := by rw [padZeros_one_block hp]; omega
  have hat : F.block - F.lenLen = (p ++ [0x80#8]).length + padZeros F p.length := by
    rw [padZeros_one_block hp, List.length_append, List.length_singleton]
    omega
  have hlen := splice_last_zeros (p ++ [0x80#8]) (lenField F tl) (padZeros F p.length)
  rw [length_lenField, ← hat] at hlen
  rw [finalBlocks, pack_bl, pack_tl, if_neg hfit, splice_pack_buf, List.length_singleton, hz, hlen]

/-- Two final blocks: the pending bytes, the marker and zeros; then zeros and the length field (R149). -/
theorem finalBlocks_pack_two {F : Family} {p : List Byte} (hp : F.block - F.lenLen ≤ p.length)
    (hB : p.length < F.block) (st : Words 64) (tl : Counter) : finalBlocks F (pack F st p tl) =
      [p ++ [0x80#8] ++ zeros (F.block - (p.length + 1)), zeros (F.block - F.lenLen) ++ lenField F tl] := by
  have hL := lenLen_lt_block F
  have hfull : F.block - p.length - 1 < F.lenLen := by omega
  have hlast := splice_last_zeros [] (lenField F tl) (F.block - F.lenLen)
  rw [length_lenField, Nat.sub_add_cancel (by omega), List.nil_append, List.nil_append, List.length_nil,
    Nat.zero_add] at hlast
  rw [finalBlocks, pack_bl, pack_tl, if_pos hfull, splice_pack_buf, List.length_singleton, hlast]

/-- Each final block has BLOCK bytes (R149). -/
theorem length_of_mem_finalBlocks {F : Family} {dc : DigestCtx} (h : dc.Inv F) {b : List Byte}
    (hb : b ∈ finalBlocks F dc) : b.length = F.block := by
  have hL := lenLen_lt_block F
  obtain ⟨st, p, tl, hB, rfl⟩ := h.exists_pack
  by_cases hp : p.length < F.block - F.lenLen
  · rw [finalBlocks_pack_one hp, padZeros_one_block hp, List.mem_singleton] at hb
    simp only [hb, List.length_append, List.length_singleton, length_zeros, length_lenField]
    omega
  · rw [finalBlocks_pack_two (by omega) hB, List.mem_pair] at hb
    rcases hb with rfl | rfl <;> simp <;> omega

/-- Together the final blocks are the pending bytes and their padding (R146, R149). -/
theorem flatten_finalBlocks_pack {F : Family} {p : List Byte} (hB : p.length < F.block) (st : Words 64) (tl : Counter) :
    (finalBlocks F (pack F st p tl)).flatten =
      p ++ [0x80#8] ++ zeros (padZeros F p.length) ++ lenField F tl := by
  by_cases hp : p.length < F.block - F.lenLen
  · rw [finalBlocks_pack_one hp]
    exact List.flatten_singleton
  · have hp' : F.block - F.lenLen ≤ p.length := by omega
    rw [finalBlocks_pack_two hp' hB, padZeros_two_blocks hp' hB]
    simp [zeros_add]

/-- Compressing blocks of BLOCK bytes one after the other is compressing their concatenation. -/
theorem foldl_compress_eq (P : Prims) (F : Family) (bs : List (List Byte)) : ∀ (st : Words 64),
    (∀ b ∈ bs, b.length = F.block) →
      bs.foldl (compress P F) st = compressBlocks P F bs.length st bs.flatten := by
  induction bs with
  | nil => exact fun st _ => rfl
  | cons b bs ih =>
    intro st h
    obtain ⟨hb, hbs⟩ := List.forall_mem_cons.1 h
    rw [List.foldl_cons, ih _ hbs, List.length_cons, List.flatten_cons, compressBlocks, List.take_left' hb,
      List.drop_left' hb]

/-- The first k blocks are all that compressing k blocks reads. -/
theorem compressBlocks_take (P : Prims) (F : Family) {k : Nat} (st : Words 64) (m : List Byte)
    (h : k * F.block ≤ m.length) : compressBlocks P F k st (m.take (k * F.block)) = compressBlocks P F k st m := by
  have e := compressBlocks_append P F k st (m.take (k * F.block)) (m.drop (k * F.block))
    (List.length_take_of_le h).ge
  rw [← e, List.take_append_drop]

/-- FinishState compresses the final blocks and no more (R149, R154). -/
theorem finishState_eq_compressBlocks (P : Prims) {F : Family} {dc : DigestCtx} (h : dc.Inv F) :
    finishState P F dc = compressBlocks P F (finalBlocks F dc).length dc.state (finalBlocks F dc).flatten :=
  foldl_compress_eq P F _ _ fun _ => length_of_mem_finalBlocks h

theorem length_flatten_finalBlocks {F : Family} {dc : DigestCtx} (h : dc.Inv F) :
    (finalBlocks F dc).flatten.length = (finalBlocks F dc).length * F.block := by
  have e : (finalBlocks F dc).map List.length = List.replicate (finalBlocks F dc).length F.block :=
    List.map_eq_replicate_iff.2 fun _ => length_of_mem_finalBlocks h
  rw [List.length_flatten, e, List.sum_replicate_nat]

/-! ### A whole message -/

/-- Absorb of a whole message from the initial context (R153). -/
theorem absorb_initDC_spec (P : Prims) (F : Family) (m : List Byte) :
    (absorb P F (initDC P F) m).state = compressBlocks P F (m.length / F.block) (iv P F) m ∧
    (absorb P F (initDC P F) m).bl = m.length % F.block ∧ (absorb P F (initDC P F) m).Inv F := by
  obtain ⟨hst, hbl, -, inv⟩ := absorb_spec P (initDC_inv P F) m
  simp only [initDC, Nat.zero_add, List.take_zero, List.nil_append] at hst hbl
  exact ⟨hst, hbl, inv⟩

/-- The padded message is the whole blocks Absorb compresses, then the final blocks (R153, R154). -/
theorem padded_eq_take_append (P : Prims) (F : Family) (m : List Byte) : padded F m =
    m.take (m.length / F.block * F.block) ++ (finalBlocks F (absorb P F (initDC P F) m)).flatten := by
  rw [initDC_eq_pack, absorb_pack P F _ [] m 0 (block_pos F), List.nil_append,
    flatten_finalBlocks_pack (length_drop_blocks_lt F m), length_drop_blocks, padZeros_mod, zero_add,
    padded_eq_padZeros]
  simp only [← List.append_assoc, List.take_append_drop]

/-- The number of blocks of a padded message (R154). -/
def paddedBlocks (F : Family) (n : Nat) : Nat :=
  if n % F.block < F.block - F.lenLen then n / F.block + 1 else n / F.block + 2

/-- They are those Absorb compresses and the final ones. -/
theorem paddedBlocks_eq (P : Prims) (F : Family) (m : List Byte) :
    paddedBlocks F m.length = m.length / F.block + (finalBlocks F (absorb P F (initDC P F) m)).length := by
  obtain ⟨-, hbl, inv⟩ := absorb_initDC_spec P F m
  rw [length_finalBlocks inv.blLt, hbl, paddedBlocks]
  split <;> rfl

theorem length_padded (P : Prims) (F : Family) (m : List Byte) :
    (padded F m).length = paddedBlocks F m.length * F.block := by
  obtain ⟨-, -, inv⟩ := absorb_initDC_spec P F m
  rw [padded_eq_take_append P, List.length_append, length_flatten_finalBlocks inv, paddedBlocks_eq P, Nat.add_mul,
    List.length_take_of_le (Nat.div_mul_le_self _ _)]

/-- Absorbing a whole message and finishing compresses the padded message, block by block, from the initial value
(R153, R154). -/
theorem finishState_absorb_initDC (P : Prims) (F : Family) (m : List Byte) :
    finishState P F (absorb P F (initDC P F) m) =
      compressBlocks P F (paddedBlocks F m.length) (iv P F) (padded F m) := by
  obtain ⟨hst, -, inv⟩ := absorb_initDC_spec P F m
  have hlen : (m.take (m.length / F.block * F.block)).length = m.length / F.block * F.block :=
    List.length_take_of_le (Nat.div_mul_le_self _ _)
  rw [finishState_eq_compressBlocks P inv, hst, paddedBlocks_eq P, padded_eq_take_append P, compressBlocks_add,
    compressBlocks_append _ _ _ _ _ _ hlen.ge, compressBlocks_take _ _ _ _ (Nat.div_mul_le_self _ _),
    List.drop_left' hlen]

/-! ### The commands on the machine -/

/-- A command whose checks pass has any effect that is one of its own: the converse of `effect_of_ok`. -/
theorem exec_of_effect {i : Instr} {s t : State} (hr : s.ready i) (he : Effect s t i) : exec i s = .next t := by
  have pass : ∀ k, s.guarded (s.checks i) k = k := fun _ => guarded_pass (checks_eq_none.2 hr)
  cases i <;> simp only [Effect] at he
  case alloc F =>
    obtain ⟨g, hg, rfl⟩ := he
    simp only [exec, execAlloc, pass, freeSlot_eq_some.2 hg]
  case hmacInit F =>
    obtain ⟨g, hg, rfl⟩ := he
    simp only [exec, execHmacInit, pass, freeSlot_eq_some.2 hg]
  case importCtx F g =>
    obtain ⟨dc, ph, hp, rfl⟩ := he
    simp only [exec, execImport, pass, hp]
  case hmacFinalize F g =>
    obtain ⟨_, _, _, rfl, rfl, rfl, rfl⟩ := he
    exact pass _
  all_goals subst he; exact pass _

/-- The slot INIT leaves (R155). -/
theorem slot_of_init {F : Family} {h : Nat} {s t : State} (hn : s.names h .digest F) (he : Effect s t (.init F h)) :
    t.slot h = { kind := .digest, fam := F, phase := .active, dc := initDC s.prims F, oc := .zero F } := by
  obtain ⟨h1, h2, hk, hf⟩ := hn
  simp only [Effect] at he
  rw [he, State.complete_slot, State.slot_setSlot_same _ _ h1 h2, hk, hf]

/-- The slot UPDATE leaves (R156). -/
theorem slot_of_update {F : Family} {h : Nat} {s t : State} (hn : s.names h .digest F) (he : Effect s t (.update F h)) :
    t.slot h = { s.slot h with dc := absorb s.prims F (s.slot h).dc (s.operandBytes s.opLen) } := by
  obtain ⟨h1, h2, -, -⟩ := hn
  simp only [Effect] at he
  rw [he, State.complete_slot, State.slot_setSlot_same _ _ h1 h2]

/-- The slot FINALIZE leaves (R157). -/
theorem slot_of_finalize {F : Family} {h : Nat} {s t : State} (hn : s.names h .digest F)
    (he : Effect s t (.finalize F h)) : t.slot h = { s.slot h with
      dc := finalDC F (s.slot h).dc (finishState s.prims F (s.slot h).dc), phase := .finalized } := by
  obtain ⟨h1, h2, -, -⟩ := hn
  simp only [Effect] at he
  rw [he, State.complete_slot, State.slot_setSlot_same _ _ h1 h2]

/-- The bytes FINALIZE writes (R157). -/
theorem readRange_of_finalize {F : Family} {h : Nat} {s t : State} (he : Effect s t (.finalize F h)) :
    Memory.readRange t.mem s.opAddr F.digLen = ser F (finishState s.prims F (s.slot h).dc) := by
  simp only [Effect] at he
  rw [he, State.complete_mem, State.setSlot_mem, ← length_ser F (finishState s.prims F (s.slot h).dc)]
  exact Memory.readRange_writeRange _ _ _

/-- No command changes the compression unit. -/
theorem prims_of_exec {i : Instr} {s t : State} (h : exec i s = .next t) : t.prims = s.prims := by
  obtain ⟨-, -, -, -, -, -, -, hplat, -⟩ := commandRegisterFrame i s t h
  rw [State.prims, State.prims, hplat]

/-- The host's writes of ADDR and LEN between two commands do not show in a slot. -/
theorem slot_with_args (s : State) (a n : Word) (h : Nat) :
    State.slot { s with laddr := a, llen := n } h = s.slot h :=
  State.slot_congr rfl h

/-- INIT with Ok: the slot's context is the initial one (R155). -/
theorem dc_of_init_ok {F : Family} {h : Nat} {s t : State} (x : exec (.init F h) s = .next t) (r : t.result = .ok) :
    (t.slot h).dc = initDC s.prims F := by
  obtain ⟨hc, he⟩ := effect_of_ok x r
  rw [slot_of_init (checks_eq_none.1 hc) he]

/-- UPDATE with Ok, its arguments latched: the slot's context has absorbed the bytes read (R156). -/
theorem dc_of_update_ok {F : Family} {h : Nat} {s t : State} {a n : Word}
    (x : exec (.update F h) { s with laddr := a, llen := n } = .next t) (r : t.result = .ok) :
    (t.slot h).dc = absorb s.prims F (s.slot h).dc (Memory.readRange s.mem a.toNat n.toNat) := by
  obtain ⟨hc, he⟩ := effect_of_ok x r
  obtain ⟨hn, -, -⟩ := checks_eq_none.1 hc
  rw [slot_of_update hn he, slot_with_args]
  rfl

/-- FINALIZE with Ok, its argument latched: the bytes at the latched address are the finished context's (R157). -/
theorem readRange_of_finalize_ok {F : Family} {h : Nat} {s t : State} {a : Word}
    (x : exec (.finalize F h) { s with laddr := a } = .next t) (r : t.result = .ok) :
    Memory.readRange t.mem a.toNat F.digLen = ser F (finishState s.prims F (s.slot h).dc) := by
  obtain ⟨-, he⟩ := effect_of_ok x r
  rw [← slot_with_args s a s.llen h]
  exact readRange_of_finalize he

/-! ### Settlements -/

/-- Settles O30: Absorb in parts, and Absorb by bytes. -/
theorem chunkingInvariance : Obligations.ChunkingInvariance :=
  fun P _ _ h => ⟨absorb_append P h, absorb_eq_foldl_byteStep P h⟩

/-- Settles O31: the chaining value and the pending count of Absorb's specification. -/
theorem absorbCompressesWholeBlocks : Obligations.AbsorbCompressesWholeBlocks := by
  intro P F dc m h
  obtain ⟨hst, hbl, -, -⟩ := absorb_spec P h m
  exact ⟨hst, hbl⟩

/-- Settles O32: byte k from the right is (tl << 3) >> 8k, and the shifts cancel from k = 1 on. -/
theorem lengthFieldShiftForm : Obligations.LengthFieldShiftForm := by
  intro F tl
  have hL : 0 < F.lenLen := by cases F <;> decide
  refine ⟨length_lenField F tl, getElem?_lenField F tl hL, fun k h1 hk => ?_⟩
  rw [getElem?_lenField F tl hk, shiftLeft_three_shiftRight _ h1]

/-- Settles O33: the final blocks by the pending count, and the whole message by the padded one. -/
theorem finalBlockCount : Obligations.FinalBlockCount := by
  refine ⟨fun dc h => ?_, fun dc h => ?_, fun P F dc => finishState_eq_compressBlocks P, finishState_absorb_initDC⟩
  · exact (length_finalBlocks (F := .f256) h).trans (if_congr Nat.lt_succ_iff rfl rfl)
  · exact (length_finalBlocks (F := .f512) h).trans (if_congr Nat.lt_succ_iff rfl rfl)

/-- Settles O34: the final blocks are the pending bytes and their padding. -/
theorem finalBlocksArePadding : Obligations.FinalBlocksArePadding := by
  intro F dc h
  refine ⟨fun b => length_of_mem_finalBlocks h, ?_⟩
  obtain ⟨st, p, tl, hB, rfl⟩ := h.exists_pack
  refine ⟨padZeros F p.length, padZeros_lt F _, ?_⟩
  rw [pack_pending, flatten_finalBlocks_pack hB]
  rfl

/-- Settles O35: the padded message is `paddedBlocks` whole blocks, and the digest compresses them all. -/
theorem digestHashesPaddedMessage : Obligations.DigestHashesPaddedMessage := by
  intro P F m
  rw [length_padded P, Nat.mul_mod_left, Nat.mul_div_cancel _ (block_pos F), digest, finishState_absorb_initDC]
  exact ⟨rfl, rfl⟩

/-- Settles O21: INIT's only checks are those of the slot's kind and family. -/
theorem initEstablishesInitialContext : Obligations.InitEstablishesInitialContext :=
  fun _ _ _ hn => ⟨_, exec_of_effect hn rfl, rfl, rfl, rfl, slot_of_init hn rfl⟩

/-- Settles O22: UPDATE's checks pass, and it absorbs its operand. -/
theorem updateAbsorbsMessageBytes : Obligations.UpdateAbsorbsMessageBytes :=
  fun _ _ _ hn hp hm => ⟨_, exec_of_effect ⟨hn, hp, hm⟩ rfl, rfl, rfl, rfl, slot_of_update hn rfl⟩

/-- Settles O23: FINALIZE's checks pass, and it writes the digest and its slot. -/
theorem finalizeWritesDigest : Obligations.FinalizeWritesDigest :=
  fun _ _ _ hn hp hm => ⟨_, exec_of_effect ⟨hn, hp, hm⟩ rfl, rfl, rfl, rfl, readRange_of_finalize rfl,
    slot_of_finalize hn rfl⟩

/-- Settles O36: the slot after each command, and Absorb in two parts. -/
theorem initUpdateFinalizeWritesDigest : Obligations.InitUpdateFinalizeWritesDigest := by
  rintro F h s0 s1 s2 s3 s4 a1 n1 a2 n2 a3 m1 m2 x1 r1 rfl x2 r2 rfl x3 r3 x4 r4
  have p1 : s1.prims = s0.prims := prims_of_exec x1
  have p2 : s2.prims = s0.prims := (prims_of_exec x2).trans p1
  have p3 : s3.prims = s0.prims := (prims_of_exec x3).trans p2
  rw [readRange_of_finalize_ok x4 r4, dc_of_update_ok x3 r3, dc_of_update_ok x2 r2, dc_of_init_ok x1 r1, p1, p2, p3,
    absorb_append _ (initDC_inv _ F), digest]

end Sys2Proof.Machine
end

section
/-! PROOFS. The context image (spec 41): its layout, what Parse accepts and returns, and EXPORT and IMPORT. -/

namespace Sys2Proof.Machine

/-! ### Slices of concatenations -/

/-- The middle part of a string in three parts. -/
theorem slice_middle {a b c : List Byte} {i n : Nat} (hi : i = a.length) (hn : n = b.length) :
    slice (a ++ b ++ c) i n = b := by
  subst hi hn
  rw [slice_append_left _ _ _ _ (List.length_append ..).ge, slice_append_right _ _ _ _ le_rfl, Nat.sub_self,
    slice_all _ _ rfl]

/-- A slice of a slice. -/
theorem slice_slice (s : List Byte) {i n j m : Nat} (h : j + m ≤ n) : slice (slice s i n) j m = slice s (i + j) m := by
  rw [slice, slice, slice, List.drop_take, List.take_take, List.drop_drop, min_eq_left (by omega)]

/-- The `i`-th item of a list coded in `n` bytes each. -/
theorem slice_flatMap {α : Type} {f : α → List Byte} {n : Nat} (hf : ∀ x, (f x).length = n) :
    ∀ {l : List α} {i : Nat} {x : α}, l[i]? = some x → slice (l.flatMap f) (i * n) n = f x
  | y :: l, 0, x, h => by
    obtain rfl : y = x := by simpa using h
    rw [List.flatMap_cons, Nat.zero_mul, slice_append_left _ _ _ _ (by rw [hf]; omega), slice_all _ _ (hf y).symm]
  | y :: l, i + 1, x, h => by
    have hi : (i + 1) * n = n + i * n := by rw [Nat.succ_mul, Nat.add_comm]
    rw [List.flatMap_cons, slice_append_right _ _ _ _ (by rw [hf]; omega), hf, hi, Nat.add_sub_cancel_left]
    exact slice_flatMap hf (by simpa using h)

/-! ### Words -/

theorem toList_ofFn {w : Nat} (f : Nat → BitVec w) : (Words.ofFn f).toList = (List.range 8).map f := rfl

/-- Eight words are those a function gives when each is. -/
theorem ofFn_eq {w : Nat} {f : Nat → BitVec w} {x : Words w} (h : ∀ i v, x.toList[i]? = some v → f i = v) :
    Words.ofFn f = x := by
  rw [Words.ofFn, h 0 _ rfl, h 1 _ rfl, h 2 _ rfl, h 3 _ rfl, h 4 _ rfl, h 5 _ rfl, h 6 _ rfl, h 7 _ rfl]

/-- A number that fits 64 bits is read back from its 8 bytes. -/
theorem beDec_beEnc_eight {v : Nat} (h : v < 2 ^ 64) : beDec (beEnc 8 v) = v :=
  (beDec_beEnc 8 v).trans (Nat.mod_eq_of_lt h)

/-- A state word that fits its family is read back from its WB bytes (R41). -/
theorem ofNat_beDec_beEnc {F : Family} {w : Lane} (h : w.toNat < 2 ^ F.wordBits) :
    BitVec.ofNat 64 (beDec (beEnc F.wordBytes w.toNat)) = w := by
  have e : 2 ^ F.wordBits = 256 ^ F.wordBytes := by rw [wordBits_eq, pow_mul, show 2 ^ 8 = 256 from rfl]
  rw [e] at h
  rw [beDec_beEnc, Nat.mod_eq_of_lt h, BitVec.ofNat_toNat, BitVec.setWidth_eq]

/-! ### The layout of an image -/

/-- Where buffered_len stands (R190). -/
theorem imageSize_sub_20 (F : Family) : F.imageSize - 20 = 8 * F.wordBytes + F.block := Nat.add_sub_cancel ..

/-- Where total_len stands (R190). -/
theorem imageSize_sub_12 (F : Family) : F.imageSize - 12 = 8 * F.wordBytes + F.block + 8 :=
  Nat.add_sub_cancel (m := 12) ..

/-- Where the four trailing bytes stand (R190). -/
theorem imageSize_sub_4 (F : Family) : F.imageSize - 4 = 8 * F.wordBytes + F.block + 16 :=
  Nat.add_sub_cancel (m := 4) ..

theorem imageBl_eq (F : Family) (s : List Byte) : imageBl F s = beDec (slice s (F.imageSize - 20) 8) := by
  rw [imageSize_sub_20, imageBl]

theorem imageTl_eq (F : Family) (s : List Byte) : imageTl F s = beDec (slice s (F.imageSize - 12) 8) := by
  rw [imageSize_sub_12, imageTl]

/-- The four trailing bytes one by one. -/
theorem imageTail_eq {F : Family} {s : List Byte} {a b c d : Byte} (h : slice s (F.imageSize - 4) 4 = [a, b, c, d]) :
    imageTail F s 0 = a ∧ imageTail F s 1 = b ∧ imageTail F s 2 = c ∧ imageTail F s 3 = d := by
  have key : ∀ {k}, k < 4 → imageTail F s k = [a, b, c, d].getD k 0 := fun {k} hk => by
    rw [← h, imageSize_sub_4, slice, List.getD_eq_getElem?_getD, List.getElem?_take_of_lt hk, List.getElem?_drop,
      imageTail, List.getD_eq_getElem?_getD]
  exact ⟨key (by decide), key (by decide), key (by decide), key (by decide)⟩

/-- The fields of an image, at the offsets of R190's table. -/
theorem image_layout {F : Family} {dc : DigestCtx} (ph : Phase) (h : dc.buf.length = F.block) :
    slice (image F dc ph) 0 (8 * F.wordBytes) = ser F dc.state ∧
    slice (image F dc ph) (8 * F.wordBytes) F.block = dc.buf ∧
    slice (image F dc ph) (F.imageSize - 20) 8 = beEnc 8 dc.bl ∧
    slice (image F dc ph) (F.imageSize - 12) 8 = beEnc 8 dc.tl.toNat ∧
    slice (image F dc ph) (F.imageSize - 4) 4 = [BitVec.ofNat 8 ph.code, BitVec.ofNat 8 F.code, 0, 0] := by
  have hs : (ser F dc.state).length = 8 * F.wordBytes := (length_ser F _).trans (digLen_eq F)
  rw [imageSize_sub_20, imageSize_sub_12, imageSize_sub_4, image]
  refine ⟨?state, ?buf, ?bl, ?tl, ?tail⟩
  case state =>
    simp only [List.append_assoc]
    exact slice_middle (a := []) rfl hs.symm
  case buf =>
    rw [List.append_assoc, List.append_assoc]
    exact slice_middle hs.symm h.symm
  case bl =>
    rw [List.append_assoc]
    exact slice_middle (by simp [hs, h]) (by simp)
  case tl => exact slice_middle (by simp [hs, h, Nat.add_assoc]) (by simp)
  case tail =>
    rw [← List.append_nil (_ ++ [_, _, _, _])]
    exact slice_middle (by simp [hs, h, Nat.add_assoc]) rfl

/-- The state words of an image are the context's (R41, R190). -/
theorem imageState_image {F : Family} {dc : DigestCtx} (ph : Phase) (h : dc.Inv F) :
    imageState F (image F dc ph) = dc.state := by
  obtain ⟨hser, -⟩ := image_layout ph h.bufLen
  refine ofFn_eq fun i w hw => ?_
  obtain ⟨hi, -⟩ := List.getElem?_eq_some_iff.1 hw
  have hin : i * F.wordBytes + F.wordBytes ≤ 8 * F.wordBytes := by
    rw [← Nat.succ_mul]
    exact Nat.mul_le_mul_right _ hi
  have word : slice (image F dc ph) (i * F.wordBytes) F.wordBytes = beEnc F.wordBytes w.toNat := by
    rw [← Nat.zero_add (i * _), ← slice_slice _ hin, hser, ser, slice_flatMap (fun _ => length_beEnc _ _) hw]
  rw [word, ofNat_beDec_beEnc (h.width w (List.mem_of_getElem? hw))]

/-! ### Parse -/

/-- The phase field as a number and as a byte: ACTIVE. -/
theorem phaseByte_eq_one {F : Family} {s : List Byte} : (imageTail F s 0).toNat = 1 ↔ imageTail F s 0 = 1 :=
  (BitVec.toNat_eq (y := 1)).symm

/-- The phase field as a number and as a byte: FINALIZED. -/
theorem phaseByte_eq_two {F : Family} {s : List Byte} : (imageTail F s 0).toNat = 2 ↔ imageTail F s 0 = 2 :=
  (BitVec.toNat_eq (y := 2)).symm

/-- The image check passes exactly when none of V1 to V8 holds (R192). -/
theorem imageValid_iff {F : Family} {s : List Byte} : imageValid F s = true ↔
    (imageTail F s 0 = 1 ∨ imageTail F s 0 = 2) ∧ (imageTail F s 1).toNat = F.code ∧
    (imageTail F s 2 = 0 ∧ imageTail F s 3 = 0) ∧ imageBl F s < F.block ∧
    (∀ b ∈ (imageBuf F s).drop (imageBl F s), b = 0) ∧
    (imageTail F s 0 = 1 → imageBl F s = imageTl F s % F.block) ∧ (imageTail F s 0 = 2 → imageBl F s = 0) ∧
    imageTl F s < 2 ^ 64 := by
  simp only [imageValid, Bool.and_eq_true, Bool.or_eq_true, Bool.not_eq_true', Bool.and_eq_false_imp, beq_iff_eq,
    bne_eq_false_iff_eq, decide_eq_true_eq, List.all_eq_true, phaseByte_eq_one, phaseByte_eq_two,
    and_assoc]

/-- Parse fails exactly when the check does (R192). -/
theorem parse_eq_none_iff {F : Family} {s : List Byte} : parse F s = none ↔ ¬ imageValid F s = true := by
  simp [parse]

/-- What Parse returns: the values of a valid image's fields (R192). -/
theorem parse_eq_some_iff {F : Family} {s : List Byte} {dc : DigestCtx} {p : Phase} : parse F s = some (dc, p) ↔
    imageValid F s = true ∧ dc.state = imageState F s ∧ dc.buf = imageBuf F s ∧ dc.bl = imageBl F s ∧
      dc.tl.toNat = imageTl F s ∧ p = if imageTail F s 0 = 1 then .active else .finalized := by
  obtain ⟨st, buf, bl, tl⟩ := dc
  by_cases hv : imageValid F s = true
  · obtain ⟨-, -, -, -, -, -, -, hlt⟩ := imageValid_iff.1 hv
    have htl : BitVec.ofNat Config.ctrBits (imageTl F s) = tl ↔ tl.toNat = imageTl F s := by
      rw [BitVec.toNat_eq, BitVec.toNat_ofNat, Nat.mod_eq_of_lt hlt, eq_comm]
    simp only [parse, hv, if_true, Option.some.injEq, Prod.mk.injEq, DigestCtx.mk.injEq, htl, phaseByte_eq_one,
      true_and, and_assoc, eq_comm (b := st), eq_comm (b := buf), eq_comm (b := bl), eq_comm (b := p)]
  · simp [parse, hv]

theorem getElem?_imageState (F : Family) (s : List Byte) {i : Nat} (hi : i < 8) : (imageState F s).toList[i]? =
    some (BitVec.ofNat 64 (beDec (slice s (i * F.wordBytes) F.wordBytes))) := by
  rw [imageState, toList_ofFn, List.getElem?_map, List.getElem?_range hi, Option.map_some]

/-- Parse undoes Image on a context that meets the invariants of its phase (R47 (d), (e), R193). -/
theorem parse_image {F : Family} {dc : DigestCtx} {ph : Phase} (h : dc.Inv F) (hu : ph ≠ .uninit)
    (ha : ph = .active → dc.bl = dc.tl.toNat % F.block) (hf : ph = .finalized → dc.bl = 0) :
    parse F (image F dc ph) = some (dc, ph) := by
  obtain ⟨-, ebuf, ebl, etl, etail⟩ := image_layout ph h.bufLen
  obtain ⟨t0, t1, t2, t3⟩ := imageTail_eq etail
  have hblock : F.block < 2 ^ 64 := by cases F <;> decide
  have hbuf : imageBuf F (image F dc ph) = dc.buf := ebuf
  have hbl : imageBl F (image F dc ph) = dc.bl := by
    rw [imageBl_eq, ebl, beDec_beEnc_eight (h.blLt.trans hblock)]
  have htl : imageTl F (image F dc ph) = dc.tl.toNat := by rw [imageTl_eq, etl, beDec_beEnc_eight dc.tl.isLt]
  have hfam : (BitVec.ofNat 8 F.code).toNat = F.code := by cases F <;> rfl
  rw [parse_eq_some_iff, imageValid_iff, t0, t1, t2, t3, hfam, hbuf, hbl, htl, imageState_image ph h]
  cases ph with
  | uninit => exact absurd rfl hu
  | active => exact ⟨⟨.inl rfl, rfl, ⟨rfl, rfl⟩, h.blLt, h.tailZero, fun _ => ha rfl, fun e => absurd e (by decide),
      dc.tl.isLt⟩, rfl, rfl, rfl, rfl, rfl⟩
  | finalized => exact ⟨⟨.inr rfl, rfl, ⟨rfl, rfl⟩, h.blLt, h.tailZero, fun e => absurd e (by decide), fun _ => hf rfl,
      dc.tl.isLt⟩, rfl, rfl, rfl, rfl, rfl⟩

/-- Parse undoes Image on a DIGEST slot that meets the slot invariants (R193). -/
theorem Slot.Inv.parse_image {x : Slot} (h : x.Inv) (hu : x.phase ≠ .uninit) :
    parse x.fam (image x.fam x.dc x.phase) = some (x.dc, x.phase) :=
  Machine.parse_image h.inner hu h.activeBl fun e => (h.finalInner e).1

/-! ### EXPORT and IMPORT on the machine -/

/-- The bytes EXPORT writes (R195). -/
theorem readRange_of_exportCtx {F : Family} {h : Nat} {s t : State} (hb : (s.slot h).dc.buf.length = F.block)
    (he : Effect s t (.exportCtx F h)) :
    Memory.readRange t.mem s.opAddr F.imageSize = image F (s.slot h).dc (s.slot h).phase := by
  simp only [Effect] at he
  rw [he, ← length_image F _ (s.slot h).phase hb]
  exact Memory.readRange_writeRange _ _ _

/-- No command changes the latched address (R50). -/
theorem opAddr_of_exec {i : Instr} {s t : State} (h : exec i s = .next t) : t.opAddr = s.opAddr := by
  rw [exec_shape h]
  rfl

/-- IMPORT of a well-formed image (R196). -/
theorem exec_importCtx_of_some {F : Family} {h : Nat} {s : State} {dc : DigestCtx} {ph : Phase}
    (hn : s.names h .digest F) (hm : s.mayMove .read F.imageSize)
    (hp : parse F (s.operandBytes F.imageSize) = some (dc, ph)) :
    exec (.importCtx F h) s = .next ((s.setSlot h { s.slot h with dc := dc, phase := ph }).complete 0) :=
  exec_of_effect ⟨hn, hm⟩ ⟨dc, ph, hp, rfl⟩

/-- IMPORT of a malformed image (R196, R272 check 6). -/
theorem exec_importCtx_of_none {F : Family} {h : Nat} {s : State} (hn : s.names h .digest F)
    (hm : s.mayMove .read F.imageSize) (hp : parse F (s.operandBytes F.imageSize) = none) :
    exec (.importCtx F h) s = .next (s.raise .invalidArguments) := by
  have hr : s.ready (.importCtx F h) := ⟨hn, hm⟩
  simp only [exec, execImport, guarded_pass (checks_eq_none.2 hr), hp]

/-- The named slot after a command that writes it and completes. -/
theorem slot_complete_setSlot {s : State} {h : Nat} {k : Kind} {F : Family} (hn : s.names h k F) (x : Slot) (d : Word) :
    ((s.setSlot h x).complete d).slot h = x := by
  obtain ⟨h1, h2, -, -⟩ := hn
  rw [State.complete_slot, State.slot_setSlot_same _ _ h1 h2]

/-! ### Settlements -/

/-- Settles O24: EXPORT's checks pass, and it writes the slot's image. -/
theorem exportWritesImage : Obligations.ExportWritesImage :=
  fun _ _ _ hn hp hb hm => ⟨_, exec_of_effect ⟨hn, hp, hm⟩ rfl, rfl, rfl, rfl, readRange_of_exportCtx hb rfl, rfl⟩

/-- Settles O37: the length and the fields of an image. -/
theorem imageLayout : Obligations.ImageLayout :=
  fun _ _ ph h => ⟨length_image _ _ ph h, image_layout ph h⟩

/-- Settles O38: the check Parse makes, and the fields it returns. -/
theorem parseAcceptsValidImages : Obligations.ParseAcceptsValidImages := by
  intro F s ph fm r0 r1 bl tl buf _ ht hbl htl hbuf
  obtain ⟨rfl, rfl, rfl, rfl⟩ := imageTail_eq ht
  obtain rfl : bl = imageBl F s := hbl.trans (imageBl_eq F s).symm
  obtain rfl : tl = imageTl F s := htl.trans (imageTl_eq F s).symm
  obtain rfl : buf = imageBuf F s := hbuf
  constructor
  · rw [parse_eq_none_iff, imageValid_iff]
    simp only [not_and_or, not_or, not_forall, Nat.not_lt, exists_prop, ne_eq]
  · intro dc p hp
    obtain ⟨-, hst, hbuf', hbl', htl', hph⟩ := parse_eq_some_iff.1 hp
    exact ⟨fun i hi => hst ▸ getElem?_imageState F s hi, hbuf', hbl', htl', hph⟩

/-- Settles O39: Parse undoes Image, and IMPORT parses the bytes EXPORT wrote. -/
theorem exportImportRoundTrip : Obligations.ExportImportRoundTrip := by
  refine ⟨fun F x hx _ hF hu => hF ▸ hx.parse_image hu, ?_⟩
  intro F h g s t u hinv hn hexp hok hg hm himp
  obtain ⟨-, -, -, rfl⟩ := hn
  obtain ⟨hc, he⟩ := effect_of_ok hexp hok
  obtain ⟨-, hu, -⟩ := checks_eq_none.1 hc
  have hbytes : t.operandBytes (s.slot h).fam.imageSize = image (s.slot h).fam (s.slot h).dc (s.slot h).phase := by
    rw [State.operandBytes, opAddr_of_exec hexp, readRange_of_exportCtx hinv.inner.bufLen he]
  have himp' := exec_importCtx_of_some hg hm (hbytes ▸ hinv.parse_image hu)
  obtain rfl := Host.Outcome.next.inj (himp.symm.trans himp')
  rw [slot_complete_setSlot hg]
  exact ⟨rfl, rfl, rfl⟩

/-- Settles O25: the two outcomes of Parse on the bytes read. -/
theorem importRestoresParsedImage : Obligations.ImportRestoresParsedImage :=
  fun _ _ _ hn hm => ⟨fun _ _ hp => ⟨_, exec_importCtx_of_some hn hm hp, rfl, rfl, rfl, slot_complete_setSlot hn _ _⟩,
    exec_importCtx_of_none hn hm⟩

end Sys2Proof.Machine
end

section
/-! PROOFS. The HMAC controller (spec 42): the derived keys, and HMAC_INIT, HMAC_UPDATE and HMAC_FINALIZE on the
machine. -/

namespace Sys2Proof.Machine

/-! ### The derived keys -/

/-- A key of at most one block is padded as it is (R220, R222). -/
theorem padKey_of_le (P : Prims) {F : Family} {K : List Byte} (h : K.length ≤ F.block) :
    padKey P F K = K ++ zeros (F.block - K.length) := by
  rw [padKey, reduceKey, if_neg h.not_gt]

/-- A longer key is hashed, and its digest padded (R220, R222). -/
theorem padKey_of_gt (P : Prims) {F : Family} {K : List Byte} (h : F.block < K.length) :
    padKey P F K = digest P F K ++ zeros (F.block - F.digLen) := by
  rw [padKey, reduceKey, if_pos h, length_digest]

theorem getElem?_xorAll (b : Byte) (s : List Byte) (j : Nat) : (xorAll b s)[j]? = s[j]?.map (· ^^^ b) :=
  List.getElem?_map

/-- The initial context after one whole block: one compression, nothing pending (R223). -/
theorem absorb_initDC_block (P : Prims) {F : Family} {m : List Byte} (h : m.length = F.block) :
    absorb P F (initDC P F) m =
      { state := compress P F (iv P F) m, buf := zeros F.block, bl := 0, tl := BitVec.ofNat 64 F.block } := by
  have htake : m.take F.block = m := List.take_of_length_le h.le
  have hdrop : m.drop F.block = [] := List.drop_eq_nil_of_le h.le
  rw [initDC_eq_pack, absorb_pack P F _ [] m 0 (block_pos F), List.nil_append, h, Nat.div_self (block_pos F)]
  simp [compressBlocks, pack, htake, hdrop]

/-! ### The effect of each command -/

/-- A handle FreeSlot returns is read back from the 32 bits of RDATA (R252). -/
theorem State.lowestFree.toNat_ofNat {s : State} {h : Nat} (hl : s.lowestFree h) : (BitVec.ofNat 32 h).toNat = h := by
  obtain ⟨-, h4, -, -⟩ := hl
  exact Nat.mod_eq_of_lt (h4.trans_lt (by decide))

/-- The slot HMAC_INIT claims, under the handle in RDATA: both contexts have absorbed their derived key (R225). -/
theorem slot_of_hmacInit {F : Family} {s t : State} (he : Effect s t (.hmacInit F)) :
    t.slot t.rdata.toNat =
      { kind := .hmac, fam := F, phase := .active
        dc := absorb s.prims F (initDC s.prims F) (innerKey s.prims F (s.operandBytes s.opLen))
        oc := absorb s.prims F (initDC s.prims F) (outerKey s.prims F (s.operandBytes s.opLen)) } := by
  simp only [Effect] at he
  obtain ⟨h, hl, rfl⟩ := he
  have ⟨h1, h4, _, _⟩ := hl
  rw [State.complete_rdata, hl.toNat_ofNat, State.complete_slot, State.slot_setSlot_same _ _ h1 h4]

/-- The slot HMAC_UPDATE leaves (R226). -/
theorem slot_of_hmacUpdate {F : Family} {h : Nat} {s t : State} (hn : s.names h .hmac F)
    (he : Effect s t (.hmacUpdate F h)) :
    t.slot h = { s.slot h with dc := absorb s.prims F (s.slot h).dc (s.operandBytes s.opLen) } := by
  simp only [Effect] at he
  rw [he, slot_complete_setSlot hn]

/-- The bytes HMAC_FINALIZE writes: the outer context's digest, once it has absorbed the inner one's (R227). -/
theorem readRange_of_hmacFinalize {F : Family} {h : Nat} {s t : State} (he : Effect s t (.hmacFinalize F h)) :
    Memory.readRange t.mem s.opAddr F.digLen = ser F (finishState s.prims F
      (absorb s.prims F (s.slot h).oc (ser F (finishState s.prims F (s.slot h).dc)))) := by
  simp only [Effect] at he
  obtain ⟨_, _, ost, rfl, rfl, rfl, rfl⟩ := he
  rw [State.complete_mem, State.setSlot_mem, ← length_ser F (finishState _ _ (absorb _ _ _ _))]
  exact Memory.readRange_writeRange _ _ _

/-! ### Each command ending with Ok -/

/-- HMAC_UPDATE with Ok, its arguments latched: the inner context has absorbed the bytes read, and the outer one is as
before (R226). -/
theorem slot_of_hmacUpdate_ok {F : Family} {h : Nat} {s t : State} {a n : Word}
    (x : exec (.hmacUpdate F h) { s with laddr := a, llen := n } = .next t) (r : t.result = .ok) :
    t.slot h =
      { s.slot h with dc := absorb s.prims F (s.slot h).dc (Memory.readRange s.mem a.toNat n.toNat) } := by
  obtain ⟨hc, he⟩ := effect_of_ok x r
  obtain ⟨hn, -, -⟩ := checks_eq_none.1 hc
  rw [slot_of_hmacUpdate hn he, slot_with_args]
  rfl

/-- HMAC_FINALIZE with Ok, its argument latched: the bytes at the latched address (R227). -/
theorem readRange_of_hmacFinalize_ok {F : Family} {h : Nat} {s t : State} {a : Word}
    (x : exec (.hmacFinalize F h) { s with laddr := a } = .next t) (r : t.result = .ok) :
    Memory.readRange t.mem a.toNat F.digLen = ser F (finishState s.prims F
      (absorb s.prims F (s.slot h).oc (ser F (finishState s.prims F (s.slot h).dc)))) := by
  obtain ⟨-, he⟩ := effect_of_ok x r
  rw [← slot_with_args s a s.llen h]
  exact readRange_of_hmacFinalize he

/-! ### Settlements -/

/-- Settles O40: the two cases of the key's length, and each byte of a derived key. -/
theorem keyDerivation : Obligations.KeyDerivation := by
  intro P F K
  refine ⟨padKey_of_le P, padKey_of_gt P, length_padKey P F K, fun j hj => ?_⟩
  have hb : (padKey P F K)[j]? = some ((padKey P F K)[j]'(by rwa [length_padKey])) := List.getElem?_eq_getElem _
  refine ⟨_, hb, ?_, ?_⟩
  · rw [innerKey, getElem?_xorAll, hb]
    rfl
  · rw [outerKey, getElem?_xorAll, hb]
    rfl

/-- Settles O28: HMAC_UPDATE's checks pass, and it absorbs its operand. -/
theorem hmacUpdateFeedsInnerContext : Obligations.HmacUpdateFeedsInnerContext :=
  fun _ _ _ hn hp hm => ⟨_, exec_of_effect ⟨hn, hp, hm⟩ rfl, rfl, rfl, rfl, slot_of_hmacUpdate hn rfl⟩

/-- Settles O27: HMAC_INIT's checks pass, and each derived key is one block. -/
theorem hmacInitLoadsKey : Obligations.HmacInitLoadsKey := by
  rintro F h s _ hl hm rfl
  have he : Effect s _ (.hmacInit F) := ⟨h, hl, rfl⟩
  have hslot := slot_of_hmacInit he
  rw [State.complete_rdata, hl.toNat_ofNat] at hslot
  refine ⟨_, exec_of_effect hm he, rfl, rfl, rfl, ?_⟩
  rw [hslot, absorb_initDC_block _ (length_innerKey ..), absorb_initDC_block _ (length_outerKey ..)]
  rfl

/-- Settles O29: HMAC_FINALIZE's checks pass, and it writes the MAC and its slot. -/
theorem hmacFinalizeWritesMac : Obligations.HmacFinalizeWritesMac := by
  rintro F h s _ _ _ hn hp hm rfl rfl rfl
  have ⟨h1, h4, _, _⟩ := hn
  have he : Effect s _ (.hmacFinalize F h) := ⟨_, _, _, rfl, rfl, rfl, rfl⟩
  refine ⟨_, exec_of_effect ⟨hn, hp, hm⟩ he, rfl, rfl, rfl, readRange_of_hmacFinalize he, ?_⟩
  rw [State.complete_slot, State.slot_setSlot_same _ _ h1 h4]
  rfl

/-- Settles O41: the slot after each command, and Absorb in parts: the inner context has absorbed the inner key and both
messages, the outer one the outer key and the inner digest. -/
theorem hmacWritesNestedDigest : Obligations.HmacWritesNestedDigest := by
  rintro F _ s0 s1 s2 s3 s4 a1 n1 a2 n2 a3 K m1 m2 rfl x1 r1 rfl rfl x2 r2 rfl x3 r3 x4 r4
  have p1 : s1.prims = s0.prims := prims_of_exec x1
  have p2 : s2.prims = s0.prims := (prims_of_exec x2).trans p1
  have p3 : s3.prims = s0.prims := (prims_of_exec x3).trans p2
  obtain ⟨-, e1⟩ := effect_of_ok x1 r1
  rw [readRange_of_hmacFinalize_ok x4 r4, slot_of_hmacUpdate_ok x3 r3, slot_of_hmacUpdate_ok x2 r2,
    slot_of_hmacInit e1, p1, p2, p3]
  simp only [absorb_append _ (initDC_inv _ F), List.append_assoc, digest]
  rfl

end Sys2Proof.Machine
end

section
/-! PROOFS. The context lifecycle (spec 43): CTXSIZE, ALLOC, CLEANUP and HMAC_CLEANUP on the machine. -/

namespace Sys2Proof.Machine

/-! ### The slot bank -/

/-- Of two writes of one slot only the second shows. -/
theorem setSlot_setSlot_same (s : State) (h : Nat) (x y : Slot) : (s.setSlot h x).setSlot h y = s.setSlot h y := by
  cases h with
  | zero => rfl
  | succ k => simp only [State.setSlot, Vector.setIfInBounds_setIfInBounds]

/-- ChkCtx looks at a handle's range and its slot's kind (R272 check 1), so it passes on any contents of that kind. -/
theorem chkCtx_setSlot_same (s : State) {h : Nat} {x : Slot} {k : Kind} (h1 : 1 ≤ h) (h4 : h ≤ Config.nctx)
    (hk : x.kind = k) : (s.setSlot h x).chkCtx h k = none := by
  rw [chkCtx_eq_none, State.slot_setSlot_same s x h1 h4]
  exact ⟨h1, h4, hk⟩

/-! ### What each command does -/

/-- CTXSIZE has no checks (R250). -/
theorem exec_ctxsize (F : Family) (s : State) :
    exec (.ctxsize F) s = .next (s.complete (BitVec.ofNat 32 F.imageSize)) :=
  exec_of_effect (i := .ctxsize F) trivial rfl

/-- CLEANUP of a DIGEST slot (R253). -/
theorem exec_cleanup {s : State} {h : Nat} (hc : s.chkCtx h .digest = none) :
    exec (.cleanup h) s = .next ((s.setSlot h Slot.free).complete 0) :=
  exec_of_effect hc rfl

/-- HMAC_CLEANUP of an HMAC slot (R228). -/
theorem exec_hmacCleanup {s : State} {h : Nat} (hc : s.chkCtx h .hmac = none) :
    exec (.hmacCleanup h) s = .next ((s.setSlot h Slot.free).complete 0) :=
  exec_of_effect hc rfl

/-! ### Settlements -/

/-- Settles O20: ALLOC has no checks, and its effect is that of the handle FreeSlot returns. -/
theorem allocClaimsLowestFreeSlot : Obligations.AllocClaimsLowestFreeSlot := by
  intro F h s hl
  have ⟨h1, h4, hk, _⟩ := hl
  have hn : s.names h .none (s.slot h).fam := ⟨h1, h4, hk, rfl⟩
  exact ⟨_, exec_of_effect (i := .alloc F) trivial ⟨h, hl, rfl⟩, rfl, rfl, rfl, slot_complete_setSlot hn _ _⟩

/-- Settles O58: with either contents the command's only check passes, and its slot write hides them. -/
theorem cleanupErasesContents : Obligations.CleanupErasesContents := by
  refine fun s h x h1 h4 => ⟨fun hx hk => ?_, fun hx hk => ?_⟩
  · rw [exec_cleanup (chkCtx_setSlot_same s h1 h4 hx), exec_cleanup (chkCtx_eq_none.2 ⟨h1, h4, hk⟩),
      setSlot_setSlot_same]
  · rw [exec_hmacCleanup (chkCtx_setSlot_same s h1 h4 hx), exec_hmacCleanup (chkCtx_eq_none.2 ⟨h1, h4, hk⟩),
      setSlot_setSlot_same]

/-- Settles O19: the image sizes of the two families are 116 and 212. -/
theorem ctxsizeReturnsImageSize : Obligations.CtxsizeReturnsImageSize :=
  fun s => ⟨exec_ctxsize .f256 s, exec_ctxsize .f512 s⟩

/-- Settles O26: the command's only check passes, and it writes the free value. -/
theorem cleanupZeroesSlot : Obligations.CleanupZeroesSlot := by
  intro h s h1 h4
  have hslot : ((s.setSlot h Slot.free).complete 0).slot h = Slot.free :=
    slot_complete_setSlot ⟨h1, h4, rfl, rfl⟩ _ _
  exact ⟨fun hk => ⟨_, exec_cleanup (chkCtx_eq_none.2 ⟨h1, h4, hk⟩), rfl, rfl, rfl, hslot⟩,
    fun hk => ⟨_, exec_hmacCleanup (chkCtx_eq_none.2 ⟨h1, h4, hk⟩), rfl, rfl, rfl, hslot⟩⟩

end Sys2Proof.Machine
end

section
/-! PROOFS. Exceptions (spec 60): which check raises what, the commands that find no free slot, and the fault set. -/

namespace Sys2Proof.Machine

/-! ### The check that fails first (R272) -/

/-- A command whose ChkCtx fails raises InvalidArguments before any other check is made (R272 check 1, R274 a to c). -/
theorem exec_badHandle {i : Instr} {s : State} {h : Nat} {k : Kind} {after : List (Option Result)}
    (hc : s.checks i = s.chkCtx h k :: after) (hbad : h = 0 ∨ Config.nctx < h ∨ (s.slot h).kind ≠ k) :
    exec i s = .next (s.raise .invalidArguments) := by
  have hctx : s.chkCtx h k = some .invalidArguments := if_pos hbad
  refine exec_fail ?_
  rw [hc, hctx, firstFailure_some_cons]

/-- A command of another family than its slot's raises InvalidArguments (R272 check 2). -/
theorem exec_wrongFamily {i : Instr} {s : State} {h : Nat} {k : Kind} {F G : Family} {after : List (Option Result)}
    (hc : s.checks i = s.chkCtx h k :: s.chkFam h F :: after) (hn : s.names h k G) (hne : F ≠ G) :
    exec i s = .next (s.raise .invalidArguments) := by
  have ⟨_, _, _, hG⟩ := hn
  have hfam : s.chkFam h F = some .invalidArguments := if_pos (hG.trans_ne hne.symm)
  refine exec_fail ?_
  rw [hc, chkCtx_of_names hn, hfam, firstFailure_none_cons, firstFailure_some_cons]

/-- A command on a slot in a phase it does not take raises InvalidState, whatever its range (R272 check 3, R275). -/
theorem exec_wrongPhase {i : Instr} {s : State} {h : Nat} {k : Kind} {F : Family} {S : List Phase}
    {after : List (Option Result)} (hc : s.checks i = s.chkCtx h k :: s.chkFam h F :: s.chkPhase h S :: after)
    (hn : s.names h k F) (hp : (s.slot h).phase ∉ S) : exec i s = .next (s.raise .invalidState) := by
  have hphase : s.chkPhase h S = some .invalidState := if_pos hp
  refine exec_fail ?_
  rw [hc, firstFailure_slotChecks hn, hphase, firstFailure_some_cons]

/-- A command whose checks before ChkAdmit pass raises BusError on a range MemAdmit refuses (R272 check 5, R277). -/
theorem exec_notAdmitted {i : Instr} {s : State} {d : Dir} (before : List (Option Result))
    (hc : s.checks i = before ++ s.rangeChecks d (transferWidth i s.opLen)) (hb : firstFailure before = none)
    (h0 : s.opAddr ≠ 0) (hend : s.opAddr + transferWidth i s.opLen ≤ Config.memSize)
    (hm : s.admits d s.opAddr (transferWidth i s.opLen) = false) : exec i s = .next (s.raise .busError) := by
  have hrange : chkRange s.opAddr (transferWidth i s.opLen) = none := chkRange_eq_none.2 (.inr ⟨h0, hend⟩)
  have hadmit : s.chkAdmit d s.opAddr (transferWidth i s.opLen) = some .busError := if_neg (by simp [hm])
  refine exec_fail ?_
  rw [hc, firstFailure_append_of_none hb, State.rangeChecks, hrange, hadmit, firstFailure_none_cons,
    firstFailure_some_cons]

/-! ### No free slot -/

theorem exec_alloc_of_full {s : State} (hs : s.full) (F : Family) :
    exec (.alloc F) s = .next (s.raise .outOfMemory) := by
  have hr : s.ready (.alloc F) := trivial
  simp only [exec, execAlloc, guarded_pass (checks_eq_none.2 hr), freeSlot_eq_none.2 hs]

theorem exec_hmacInit_of_full {s : State} (hs : s.full) (F : Family) (hm : s.mayMove .read s.opLen) :
    exec (.hmacInit F) s = .next (s.raise .outOfMemory) := by
  have hr : s.ready (.hmacInit F) := hm
  simp only [exec, execHmacInit, guarded_pass (checks_eq_none.2 hr), freeSlot_eq_none.2 hs]

/-! ### The fault set -/

/-- An address in the range of a pending legal word is in the pending DMA range (R307). -/
theorem inDmaRange_eq_true {s : State} {i : Instr} {x : Nat} (hp : s.pend = true) (hd : decode s.lcmd = .ok i)
    (h1 : s.opAddr ≤ x) (h2 : x < s.opAddr + transferWidth i s.opLen) (h3 : x < Config.memSize) :
    s.inDmaRange x = true := by
  simp [State.inDmaRange, hp, hd, h1, h2, h3]

theorem hazard_mem_hostLoad {s : State} {x : Nat} (hr : s.inDmaRange x = true) :
    Fault.hazardDmaRange ∈ (s.hostLoad x).2.faults := by
  obtain ⟨fs, n, e, hf⟩ := hostLoad_spec s x
  rw [e]
  exact (hf _).2 (.inr ⟨hr, rfl⟩)

theorem hazard_mem_hostStore {s : State} {x : Nat} (hr : s.inDmaRange x = true) (b : Byte) :
    Fault.hazardDmaRange ∈ (s.hostStore x b).faults := by
  obtain ⟨fs, n, v, rs, e, hf, -⟩ := hostStore_spec s x b
  rw [e]
  exact (hf _).2 (.inr ⟨hr, rfl⟩)

/-- From `s` to `t` no fault goes, and only HazardDmaRange may come, while a command is pending in `s` (R290). -/
def FaultsGrow (s t : State) : Prop :=
  (∀ f ∈ s.faults, f ∈ t.faults) ∧ ∀ f ∈ t.faults, f ∉ s.faults → f = .hazardDmaRange ∧ s.pend = true

theorem FaultsGrow.of_eq {s t : State} (h : t.faults = s.faults) : FaultsGrow s t := by
  constructor
  · exact fun f hf => h ▸ hf
  · exact fun f hf hnew => absurd (h ▸ hf) hnew

/-- A host access adds HazardDmaRange when it races, and a race needs a pending command (R307). -/
theorem FaultsGrow.of_access {s t : State} {a : Nat}
    (h : ∀ f, f ∈ t.faults ↔ f ∈ s.faults ∨ (s.inDmaRange a = true ∧ f = .hazardDmaRange)) : FaultsGrow s t := by
  refine ⟨fun f hf => (h f).2 (.inl hf), fun f hf hnew => ?_⟩
  obtain ⟨hr, e⟩ := ((h f).1 hf).resolve_left hnew
  exact ⟨e, (inDmaRange_true hr).1⟩

theorem writeWindow_faults (s : State) (off : Nat) (v : Word) : (s.writeWindow off v).faults = s.faults := by
  by_cases hc : off = 0x04
  · subst hc
    change (s.writeCmd v).faults = s.faults
    cases hp : s.pend
    · rw [writeCmd_idle hp, State.accept_faults]
    · rw [writeCmd_busy hp]
  · rw [writeWindow_not_cmd s v hc]

theorem settleRaces_faults (s : State) : s.settleRaces.faults = s.faults := by
  obtain ⟨m, n, e, -⟩ := havoc_spec s.raced s
  rw [State.settleRaces, e]

/-- The engine's turn adds no fault: a bad command ends with a result code instead (R270, R273). -/
theorem engineTurn_faults {s t : State} (h : s.engineTurn = .next t) : t.faults = s.faults := by
  unfold State.engineTurn at h
  split at h
  · obtain ⟨u, hu, rfl⟩ := mapNext_eq_next h
    rw [settleRaces_faults]
    unfold State.runPending at hu
    split at hu
    · rw [exec_shape hu]
    · cases hu
      rfl
  · cases h
    rfl

theorem HostEffect.faultsGrow {s u : State} (h : HostEffect s u) : FaultsGrow s u := by
  rcases h with rfl | ⟨off, v, rfl⟩ | ⟨a, rfl⟩ | ⟨a, b, -, rfl⟩
  · exact .of_eq rfl
  · exact .of_eq (writeWindow_faults s off v)
  · obtain ⟨fs, n, e, hf⟩ := hostLoad_spec s a
    rw [e]
    exact .of_access hf
  · obtain ⟨fs, n, v, rs, e, hf, -⟩ := hostStore_spec s a b
    rw [e]
    exact .of_access hf

/-- A host agent's turn; the agent's own update leaves the fault set alone. -/
theorem hostTurn_faultsGrow {s t : State} {k : Nat} (h : s.hostTurn k = .next t) : FaultsGrow s t := by
  rcases hostTurn_cases h with rfl | ⟨u, h', hu, rfl⟩
  · exact .of_eq rfl
  · exact hu.faultsGrow

theorem resetTurn_faults (s : State) : s.resetTurn.faults = s.faults := by
  obtain ⟨m, n, e, -⟩ := resetTurn_spec s
  rw [e, State.resetEngine_faults]

/-! ### Settlements -/

/-- Settles O8: a command raises a result, or has its effect and ends with Ok. -/
theorem failedCommandChangesNothing : Obligations.FailedCommandChangesNothing := by
  intro i s t h hr
  rcases exec_cases h with ⟨r, -, rfl⟩ | ⟨-, e⟩
  · rfl
  · exact absurd e.done.1 hr

/-- Settles O18: FreeSlot finds nothing. -/
theorem noFreeSlotRaisesOutOfMemory : Obligations.NoFreeSlotRaisesOutOfMemory :=
  fun F _ hs => ⟨exec_alloc_of_full hs F, exec_hmacInit_of_full hs F⟩

/-- Settles O53: by whose turn the step is. -/
theorem faultSetOnlyGrows : Obligations.FaultSetOnlyGrows := by
  intro s t h
  obtain ⟨turns, h⟩ := step_cases h
  change FaultsGrow { s with schedule := turns } t
  rcases h with h | ⟨k, h⟩ | rfl | rfl
  · exact .of_eq (engineTurn_faults h)
  · exact hostTurn_faultsGrow h
  · exact .of_eq (resetTurn_faults _)
  · exact .of_eq rfl

/-- Settles O13: ChkCtx is the first check of each of the nine commands. -/
theorem badHandleRaisesInvalidArguments : Obligations.BadHandleRaisesInvalidArguments := by
  intro F h s
  simp only [List.forall_mem_cons, List.not_mem_nil, false_imp_iff, implies_true, and_true]
  refine ⟨⟨?_, ?_, ?_, ?_, ?_, ?_⟩, ?_, ?_, ?_⟩ <;> exact exec_badHandle rfl

/-- Settles O14: ChkCtx passes, and ChkFam is the second check of each of the seven commands. -/
theorem wrongFamilyRaisesInvalidArguments : Obligations.WrongFamilyRaisesInvalidArguments := by
  intro F G h s hne
  simp only [List.forall_mem_cons, List.not_mem_nil, false_imp_iff, implies_true, and_true]
  constructor <;> intro hn
  · refine ⟨?_, ?_, ?_, ?_, ?_⟩ <;> exact exec_wrongFamily rfl hn hne
  · constructor <;> exact exec_wrongFamily rfl hn hne

/-- Settles O15: ChkCtx and ChkFam pass, and ChkPhase is the third check of each of the five commands. -/
theorem wrongPhaseRaisesInvalidState : Obligations.WrongPhaseRaisesInvalidState := by
  intro F h s
  simp only [List.forall_mem_cons, List.not_mem_nil, false_imp_iff, implies_true, and_true]
  refine ⟨fun hn hp => ?_, fun hn hp => ?_, fun hn hp => ?_⟩
  · have hp := mt List.mem_singleton.1 hp
    constructor <;> exact exec_wrongPhase rfl hn hp
  · exact exec_wrongPhase rfl hn fun hm => mem_active_finalized.1 hm hp
  · have hp := mt List.mem_singleton.1 hp
    constructor <;> exact exec_wrongPhase rfl hn hp

/-- Settles O17: of each command's checks, those before ChkAdmit pass. -/
theorem notAdmittedRaisesBusError : Obligations.NotAdmittedRaisesBusError := by
  rintro F h s i d hi h0 hend hm
  have active : ∀ {k}, s.names h k F → (s.slot h).phase = .active →
      firstFailure [s.chkCtx h k, s.chkFam h F, s.chkPhase h [.active]] = none :=
    fun hn hp => firstFailure_phaseChecks hn (List.mem_singleton.2 hp)
  rcases hi with ⟨rfl, rfl, hn, hp⟩ | ⟨rfl, rfl, hn, hp⟩ | ⟨rfl, rfl, hn, hp⟩ | ⟨rfl, rfl, hn⟩ | ⟨rfl, rfl⟩ |
    ⟨rfl, rfl, hn, hp⟩ | ⟨rfl, rfl, hn, hp⟩
  · exact exec_notAdmitted _ rfl (active hn hp) h0 hend hm
  · exact exec_notAdmitted _ rfl (active hn hp) h0 hend hm
  · exact exec_notAdmitted _ rfl (firstFailure_phaseChecks hn (mem_active_finalized.2 hp)) h0 hend hm
  · exact exec_notAdmitted _ rfl (firstFailure_slotChecks hn []) h0 hend hm
  · exact exec_notAdmitted [] rfl firstFailure_nil h0 hend hm
  · exact exec_notAdmitted _ rfl (active hn hp) h0 hend hm
  · exact exec_notAdmitted _ rfl (active hn hp) h0 hend hm

/-- Settles O51: the access goes on, and it is in the pending DMA range. -/
theorem dmaRangeAccessIsHazard : Obligations.DmaRangeAccessIsHazard := by
  intro s k x h b st rest turns i hn hst hw hp hd h1 h2 hx
  have hr : State.inDmaRange { s with schedule := turns } x = true := inDmaRange_eq_true hp hd h1 h2 hx
  have hm := onMemory_eq (s := { s with schedule := turns }) hw hx
  rw [step_of_hostNext hn]
  rcases hst with rfl | rfl <;> rw [State.runStmt, hm]
  · exact ⟨_, rfl, hazard_mem_hostLoad hr⟩
  · exact ⟨_, rfl, hazard_mem_hostStore hr b⟩

end Sys2Proof.Machine
end

section
/-! PROOFS. Reset (spec 70): the store a reset abandons, and what a reset turn leaves of the engine and of host memory. -/

namespace Sys2Proof.Machine

/-! ### The abandoned store -/

/-- A storing command that is ready ends with Ok: only its checks can make it fail. -/
theorem exec_ok_of_storing {s : State} {i : Instr} (hd : transferDir i = some .write) (hr : s.ready i) :
    ∃ u, exec i s = .next u ∧ u.result = .ok := by
  obtain ⟨F, h, rfl | rfl | rfl⟩ := transferDir_eq_write.1 hd
  · exact ⟨_, exec_of_effect hr rfl, rfl⟩
  · exact ⟨_, exec_of_effect hr rfl, rfl⟩
  · exact ⟨_, exec_of_effect hr ⟨_, _, _, rfl, rfl, rfl, rfl⟩, rfl⟩

/-- A pending store is that of a FINALIZE, HMAC_FINALIZE or EXPORT that would have ended with Ok (R301). -/
theorem storing_of_pendingStore {s : State} {a n : Nat} (hp : s.pendingStore = some (a, n)) :
    ∃ F h i, s.pend = true ∧ decode s.lcmd = .ok i ∧
      ((i = .finalize F h ∧ n = F.digLen) ∨ (i = .hmacFinalize F h ∧ n = F.digLen) ∨
        (i = .exportCtx F h ∧ n = F.imageSize)) ∧
      (∃ u, exec i s = .next u ∧ u.result = .ok) ∧ a = s.laddr.toNat := by
  obtain ⟨i, hpend, hi, hd, hc, ha, rfl⟩ := pendingStore_eq_some hp
  obtain ⟨F, h, hw⟩ := transferDir_eq_write.1 hd
  refine ⟨F, h, i, hpend, hi, ?_, exec_ok_of_storing hd (checks_eq_none.1 hc), ha⟩
  rcases hw with rfl | rfl | rfl
  · exact .inl ⟨rfl, rfl⟩
  · exact .inr (.inr ⟨rfl, rfl⟩)
  · exact .inr (.inl ⟨rfl, rfl⟩)

/-- Whose turn comes after the reset does not matter to the store it abandons. -/
theorem pendingStore_with_schedule (s : State) (turns : List Turn) :
    State.pendingStore { s with schedule := turns } = s.pendingStore := rfl

/-! ### The reset turn -/

theorem step_of_reset {s : State} {turns : List Turn} (h : s.schedule = .reset :: turns) :
    step s = .next (State.resetTurn { s with schedule := turns }) := by
  simp only [step, h]

/-- A reset changes what host memory reads in the range of a pending store only (R301). -/
theorem read_resetTurn (s : State) (x : Nat) : Memory.read s.resetTurn.mem x = Memory.read s.mem x ∨
    ∃ a n, s.pendingStore = some (a, n) ∧ a ≤ x ∧ x < a + n := by
  obtain ⟨m, _, e, -, rfl | ⟨a, n, bs, hp, rfl, rfl⟩⟩ := resetTurn_spec s <;> rw [e, State.resetEngine_mem]
  · exact .inl rfl
  · by_cases hx : a ≤ x ∧ x < a + bs.length
    · exact .inr ⟨a, _, hp, hx⟩
    · exact .inl (Memory.read_writeRange_outside _ _ _ _ (by omega))

/-! ### Settlements -/

/-- Settles O54: the slots of the reset state are those of an engine that was reset. -/
theorem resetValues : Obligations.ResetValues :=
  ⟨rfl, rfl, rfl, rfl, rfl, rfl, rfl, rfl, rfl, rfl, rfl, resetEngine_slot State.reset⟩

/-- Settles O55: a byte that changes lies in the range of a pending store, so its command would have ended with Ok. -/
theorem resetTurnErasesEngine : Obligations.ResetTurnErasesEngine := by
  intro s turns hs
  obtain ⟨m, k, e, -⟩ := resetTurn_spec { s with schedule := turns }
  refine ⟨_, step_of_reset hs, ?_⟩
  have frame := read_resetTurn { s with schedule := turns }
  rw [e] at frame ⊢
  refine ⟨rfl, rfl, rfl, rfl, rfl, rfl, rfl, rfl, rfl, rfl, resetEngine_slot _, fun x hx => ?_⟩
  refine (frame x).resolve_right ?_
  rintro ⟨a, n, hp, hlo, hhi⟩
  rw [pendingStore_with_schedule] at hp
  obtain ⟨F, h, i, hpend, hi, hw, hok, rfl⟩ := storing_of_pendingStore hp
  exact hx ⟨F, h, i, n, hpend, hi, hw, hok, hlo, hhi⟩

end Sys2Proof.Machine
end
